-- ==== Sys2Proof/Word.lean ====
section
/-! DEFINITION. The word types of the block (spec/00_scope.md R7). -/

namespace Sys2Proof

/-- A command word: `CMDW = 32` bits (R7, R70). -/
abbrev CmdWord := BitVec 32

/-- A response word: `RESPW = 32` bits (R7, R77). -/
abbrev RespWord := BitVec 32

/-- The contents of a register of the register file: `REGW = 16` bits (R7, R22). -/
abbrev RegWord := BitVec 16

/-- A pixel word: `PIXW = 24` bits (R7, R53). -/
abbrev Pixel := BitVec 24

/-- One byte of the OUT stream (R55). -/
abbrev Byte := BitVec 8

/-- The pixel value BLACK (R53). -/
def black : Pixel := 0x000000

/-- The pixel value WHITE (R53). -/
def white : Pixel := 0xFFFFFF

end Sys2Proof
end

