-- ==== Sys2Proof/Syntax.lean ====
section
/-! DEFINITION. The command set as syntax: one constructor per row of spec/opcode_table.json (R74), the
names of the fifteen registers (R22, R80), and the pseudo-commands of the assembler (R79). -/

namespace Sys2Proof

/-- The ten commands. WRREG and RDREG carry the register number as the word has it, all 256 values of
it: whether it names a register is checked when the command executes, not when it is decoded (R75). -/
inductive Instr where
  /-- `NOP` (R90). -/
  | nop
  /-- `WRREG reg, imm` (R91). -/
  | wrreg (reg : BitVec 8) (imm : RegWord)
  /-- `RDREG reg` (R92). -/
  | rdreg (reg : BitVec 8)
  /-- `CLRERR` (R93). -/
  | clrerr
  /-- `SRESET` (R94). -/
  | sreset
  /-- `SCALEP` (R109). -/
  | scalep
  /-- `SCALEB` (R110). -/
  | scaleb
  /-- `TOBIN` (R125). -/
  | tobin
  /-- `PACK` (R139). -/
  | pack
  /-- `ENCODE` (R146). -/
  | encode
  deriving DecidableEq, Repr

/-- The fifteen registers of the register file, in the order of their numbers (R22). -/
inductive Reg where
  | srcw | srch | maxw | maxh | maxf | thresh | ctrl | status
  | bw | bh | rowbytes | bpol | outw | outh | factor
  deriving DecidableEq, Repr

/-- The pseudo-commands of the assembler (R79). -/
inductive Pseudo where
  /-- `SETSRC w, h`. -/
  | setsrc (w h : RegWord)
  /-- `SETBOX mw, mh, mf`. -/
  | setbox (mw mh mf : RegWord)
  /-- `CONVERT`. -/
  | convert
  /-- `PREVIEW`. -/
  | preview
  deriving DecidableEq, Repr

end Sys2Proof
end

