-- ==== Sys2Proof/WellFormed.lean ====
section
/-! DEFINITION. Which commands are permitted: the checks of R76 items 4 to 7, on the command alone. Every
other command executes as IllegalCommand (R163). Log entry 20. -/

namespace Sys2Proof

/-- A command that none of the items 4 to 7 of R76 calls illegal: WRREG names one of the writable
registers 0 to 6 and its immediate is one that register takes, RDREG names one of the registers 0 to 14. -/
def Instr.wellFormed : Instr → Bool
  | .nop           => true
  | .wrreg reg imm =>
    decide (reg.toNat ≤ 6)
      && !(decide (reg.toNat = 5) && decide (255 < imm.toNat))
      && !(decide (reg.toNat = 6) && decide (imm.extractLsb' 2 14 ≠ 0))
  | .rdreg reg     => decide (reg.toNat ≤ 14)
  | .clrerr        => true
  | .sreset        => true
  | .scalep        => true
  | .scaleb        => true
  | .tobin         => true
  | .pack          => true
  | .encode        => true

/-- `Instr.wellFormed` as a proposition. -/
abbrev Instr.WellFormed (i : Instr) : Prop := i.wellFormed = true

end Sys2Proof
end

