-- ==== Sys2Proof/Decode.lean ====
section
/-! DEFINITION. Decoding and encoding of command words (spec/30_encoding.md): the fields of R71, the
decoder of R75, the match and mask rows of R72 and spec/opcode_table.json, the encoder of R74 and R78, the
register numbers of R80, and the expansions of R79. -/

namespace Sys2Proof

/-- `c[31:24]`, the opcode (R71). -/
def opField (c : CmdWord) : BitVec 8 := c.extractLsb' 24 8

/-- `c[23:16]`, the register number (R71). -/
def regField (c : CmdWord) : BitVec 8 := c.extractLsb' 16 8

/-- `c[15:0]`, the immediate (R71, R73). -/
def immField (c : CmdWord) : RegWord := c.extractLsb' 0 16

/-- The command word with the three fields of R71. -/
def commandWord (op : BitVec 8) (reg : BitVec 8) (imm : RegWord) : CmdWord := op ++ reg ++ imm

/-- Why a word is not a command (R76 items 1 to 3). -/
inductive DecodeError where
  /-- Item 1: no command has this opcode. -/
  | reservedOpcode (op : BitVec 8)
  /-- Item 2: a format-Z word whose bits 23 to 0 are not all zero. -/
  | nonzeroOperandZ (reg : BitVec 8) (imm : RegWord)
  /-- Item 3: an RDREG word whose bits 15 to 0 are not all zero. -/
  | nonzeroImmR (imm : RegWord)
  deriving DecidableEq, Repr

/-- What a word decodes to: "either one of the ten commands with its operands, or `Illegal`" (R75). -/
inductive Decoded where
  | command (i : Instr)
  | illegal (why : DecodeError)
  deriving DecidableEq, Repr

/-- A format-Z word is its command only if its register and immediate fields are zero (R72, R75). -/
def decodeZ (i : Instr) (c : CmdWord) : Decoded :=
  if regField c ≠ 0 ∨ immField c ≠ 0 then .illegal (.nonzeroOperandZ (regField c) (immField c))
  else .command i

/-- A format-R word is RDREG only if its immediate field is zero (R72, R75). -/
def decodeR (c : CmdWord) : Decoded :=
  if immField c ≠ 0 then .illegal (.nonzeroImmR (immField c)) else .command (.rdreg (regField c))

/-- The decoder of R75, total on all `2^32` words, by the opcode map of R74. -/
def decode (c : CmdWord) : Decoded :=
  if opField c = 0x00 then decodeZ .nop c
  else if opField c = 0x01 then .command (.wrreg (regField c) (immField c))
  else if opField c = 0x02 then decodeR c
  else if opField c = 0x03 then decodeZ .clrerr c
  else if opField c = 0x04 then decodeZ .sreset c
  else if opField c = 0x10 then decodeZ .scalep c
  else if opField c = 0x11 then decodeZ .scaleb c
  else if opField c = 0x20 then decodeZ .tobin c
  else if opField c = 0x30 then decodeZ .pack c
  else if opField c = 0x31 then decodeZ .encode c
  else .illegal (.reservedOpcode (opField c))

/-- The encoder: the word patterns of R74 and R78. -/
def encode : Instr → CmdWord
  | .nop           => commandWord 0x00 0 0
  | .wrreg reg imm => commandWord 0x01 reg imm
  | .rdreg reg     => commandWord 0x02 reg 0
  | .clrerr        => commandWord 0x03 0 0
  | .sreset        => commandWord 0x04 0 0
  | .scalep        => commandWord 0x10 0 0
  | .scaleb        => commandWord 0x11 0 0
  | .tobin         => commandWord 0x20 0 0
  | .pack          => commandWord 0x30 0 0
  | .encode        => commandWord 0x31 0 0

/-- One row of spec/opcode_table.json: "a word `c` is the command of a row when `c & mask = match`" (R72). -/
structure Row where
  pattern : CmdWord
  mask    : CmdWord
  deriving DecidableEq, Repr

/-- Whether a word is the command of a row (R72). -/
def Row.covers (r : Row) (c : CmdWord) : Bool := c &&& r.mask == r.pattern

/-- The row of a command in spec/opcode_table.json. -/
def tableRow : Instr → Row
  | .nop       => ⟨0x00000000, 0xFFFFFFFF⟩
  | .wrreg _ _ => ⟨0x01000000, 0xFF000000⟩
  | .rdreg _   => ⟨0x02000000, 0xFF00FFFF⟩
  | .clrerr    => ⟨0x03000000, 0xFFFFFFFF⟩
  | .sreset    => ⟨0x04000000, 0xFFFFFFFF⟩
  | .scalep    => ⟨0x10000000, 0xFFFFFFFF⟩
  | .scaleb    => ⟨0x11000000, 0xFFFFFFFF⟩
  | .tobin     => ⟨0x20000000, 0xFFFFFFFF⟩
  | .pack      => ⟨0x30000000, 0xFFFFFFFF⟩
  | .encode    => ⟨0x31000000, 0xFFFFFFFF⟩

/-- The ten rows of spec/opcode_table.json, in its order. -/
def tableRows : List Row :=
  [tableRow .nop, tableRow (.wrreg 0 0), tableRow (.rdreg 0), tableRow .clrerr, tableRow .sreset,
   tableRow .scalep, tableRow .scaleb, tableRow .tobin, tableRow .pack, tableRow .encode]

/-- The word of the first `nbits` bits of `w`, every bit above them zero: a command is one 32-bit word
that moves whole (R57, R70), so bit 0 of the table's numbering is bit 0 of the word. Log entry 16. -/
def tableWord (nbits w : Nat) : CmdWord := BitVec.ofNat 32 (w % 2 ^ nbits)

/-- The command the decoder reads from a word numbered as spec/opcode_table.json numbers it. -/
def decodeTableWord (nbits w : Nat) : Option Instr :=
  match decode (tableWord nbits w) with
  | .command i => some i
  | .illegal _ => none

/-- The number of a register (R22, R80). -/
def regNumber : Reg → BitVec 8
  | .srcw => 0 | .srch => 1 | .maxw => 2 | .maxh => 3 | .maxf => 4 | .thresh => 5 | .ctrl => 6
  | .status => 7 | .bw => 8 | .bh => 9 | .rowbytes => 10 | .bpol => 11 | .outw => 12 | .outh => 13
  | .factor => 14

/-- The commands a pseudo-command stands for, in that order (R79). -/
def expandPseudo : Pseudo → List Instr
  | .setsrc w h       => [.wrreg (regNumber .srcw) w, .wrreg (regNumber .srch) h]
  | .setbox mw mh mf  =>
    [.wrreg (regNumber .maxw) mw, .wrreg (regNumber .maxh) mh, .wrreg (regNumber .maxf) mf]
  | .convert          => [.tobin, .encode]
  | .preview          => [.scalep, .tobin, .scaleb]

end Sys2Proof
end

