-- ==== Sys2Proof/Config.lean ====
section
/-! DEFINITION. What one implementation of the block fixes (R7), and the values the spec leaves open
(spec/93_implementation_defined.md U1 to U4), as constants without a body. -/

namespace Sys2Proof

/-- The two OPEN parameters of R7: "the model takes it as an argument, with the default shown".
They stand in `State.params`, which no step changes (log entry 1). -/
structure Params where
  /-- `BITS_CAP`: capacity of the BITS store in bits (R35). -/
  bitsCap : Nat
  /-- `DST_CAP`: capacity of the DST store in pixel words (R36). -/
  dstCap  : Nat
  deriving DecidableEq, Repr

/-- The default capacities of R7: `BITS_CAP = DST_CAP = 2^32`. -/
def Params.default : Params := { bitsCap := 2 ^ 32, dstCap := 2 ^ 32 }

/-- FREE VALUE (U3, R192; log entry 2): what the source collaborator answers where its buffer gives no
word: `srcAnswer draw k x y` is its answer, in the command that runs at draw number `draw`, to the read
of column `x`, row `y` made for the element of linear index `k` of the result. -/
opaque Config.srcAnswer : Nat → Nat → Nat → Nat → Pixel

/-- FREE VALUE (U1, R54; log entry 4): what the DST read port answers, at draw number `draw`, to a read
whose value the spec leaves unspecified. -/
opaque Config.dstAnswer : Nat → Pixel

/-- FREE VALUE (U2, R186; log entry 5): how many bytes a command that a hardware reset abandons had
emitted, at draw number `draw`, at most. -/
opaque Config.abandonedCount : Nat → Nat

/-- FREE VALUE (U4; log entry 8): the physical contents of the BITS storage at a linear index that the
raster held in BITS does not list. No command reads it in a state that meets `Memory.wf`. -/
opaque Config.bitsStorage : Nat → Bool

end Sys2Proof
end

