-- ==== Sys2Proof/Machine/State.lean ====
section
/-! DEFINITION. The state of the block (spec/10_state.md), the inputs that reach it from outside (R11, R38,
R54, R55, R60, R186), and its value after reset (R42). All of it is plain data. -/

namespace Sys2Proof.Machine

/-- The register file (R22): fifteen registers of 16 bits, each under its own name. -/
structure RegFile where
  /-- 0, rw: width of the source pixel buffer (R23). -/
  srcw     : RegWord
  /-- 1, rw: height of the source pixel buffer (R23). -/
  srch     : RegWord
  /-- 2, rw: envelope width (R24). -/
  maxw     : RegWord
  /-- 3, rw: envelope height (R24). -/
  maxh     : RegWord
  /-- 4, rw: largest scale factor (R25). -/
  maxf     : RegWord
  /-- 5, rw: binarization cutoff (R26). -/
  thresh   : RegWord
  /-- 6, rw: bit 0 POL, bit 1 FMT (R27). -/
  ctrl     : RegWord
  /-- 7, ro: sticky error flags (R28). -/
  status   : RegWord
  /-- 8, ro: width of the raster in BITS (R29). -/
  bw       : RegWord
  /-- 9, ro: height of the raster in BITS (R29). -/
  bh       : RegWord
  /-- 10, ro: bytes per packed row, written together with BW (R30; log entry 9). -/
  rowbytes : RegWord
  /-- 11, ro: polarity the raster in BITS was made with (R31). -/
  bpol     : RegWord
  /-- 12, ro: width of the buffer in DST (R32). -/
  outw     : RegWord
  /-- 13, ro: height of the buffer in DST (R32). -/
  outh     : RegWord
  /-- 14, ro: scale factor of the buffer in DST (R33). -/
  factor   : RegWord
  deriving DecidableEq, Repr

/-- The buffer the source collaborator offers at the source pixel port (R12, R38, R52): environment data,
not state of the block. `pixels` is row-major. `steady` says that the collaborator keeps R52's property 1
(a read of one position answers the same word throughout a command); where it does not, every answer is
whatever the collaborator returns (R192, U3). -/
structure PixelBuffer where
  width  : Nat
  height : Nat
  pixels : List Pixel
  steady : Bool
  deriving DecidableEq, Repr

/-- What the parties around the block do (R11), in the order in which it reaches the block. -/
inductive Event where
  /-- The host gives a command word (R60); a word given early waits here and is not lost (R60). -/
  | command (word : CmdWord)
  /-- The source collaborator's buffer is replaced between commands (R192). -/
  | offerSource (buffer : PixelBuffer)
  /-- Hardware reset while the block is idle (R185). -/
  | hardwareReset
  /-- The host gives a command word and hardware reset arrives while that command runs (R186). -/
  | resetDuring (word : CmdWord)
  /-- The display collaborator reads the DST port at (ox, oy) (R54): between commands, or, against R194,
  while a command runs (`busy`). -/
  | displayRead (busy : Bool) (ox oy : RegWord)
  /-- The byte sink takes up to `n` bytes from the front of OUT (R37). -/
  | sinkTake (n : Nat)
  deriving DecidableEq, Repr

/-- The completion codes of R160 other than OK, each an error kind. -/
inductive ErrorKind where
  /-- Code 1 (R161). -/
  | invalidDimension
  /-- Code 2 (R162): reserved for the image-loading collaborator; the block never raises it. -/
  | decodeFailure
  /-- Code 3 (R163). -/
  | illegalCommand
  /-- Code 4 (R164). -/
  | factorUnderflow
  /-- Code 5 (R165). -/
  | capacityExceeded
  deriving DecidableEq, Repr

/-- The whole state: the block's own (registers, stores, OUT), then the model's record of what the outside
sees and does. -/
structure State where
  /-- The register file (R22). -/
  regs      : RegFile
  /-- The BITS store: the bits of the one BinaryRaster, row-major, `BW * BH` of them (R35; log entry 8). -/
  bits      : List Bool
  /-- The DST store: the pixel words of the one ScaledBuffer, row-major, `OUTW * OUTH` of them (R36). -/
  dst       : List Pixel
  /-- The OUT stream: the bytes emitted so far that the sink has not taken, oldest first (R37, R55). -/
  out       : List Byte
  /-- The output of the last command: the bytes it emitted (R37; log entry 11). -/
  output    : List Byte
  /-- The response words produced so far, oldest first (R77, R197; log entry 12). -/
  responses : List RespWord
  /-- Inputs that have not reached the block yet, the next one first (R60; log entry 6). -/
  pending   : List Event
  /-- The buffer now offered at the source pixel port (R38; log entry 2). -/
  src       : PixelBuffer
  /-- The words the DST read port has answered, oldest first (R54; log entry 14). -/
  shown     : List Pixel
  /-- The MODEL's own counter of served inputs; the free values are drawn by it (log entry 19). -/
  draws     : Nat
  /-- The implementation's parameters; no step changes them (R7; log entry 1). -/
  params    : Params
  deriving DecidableEq, Repr

/-- Why the machine stops. EMPTY: no command and no input stops the block; an error is a completion with a
code, after which it accepts the next command (R166), and "every one of the 2^32 words has exactly one
specified behaviour" (R76). -/
inductive Fault where
  deriving DecidableEq, Repr

/-- Why a command has no meaning in the model. -/
inductive Refusal where
  /-- Raised by an arm of `exec` for a command that is not modelled; no arm raises it now. Safe. -/
  | notModelled (mnemonic : String)
  deriving DecidableEq, Repr

/-- The register file after reset (R42). -/
def RegFile.reset : RegFile :=
  { srcw := 0, srch := 0, maxw := 500, maxh := 300, maxf := 5, thresh := 128, ctrl := 0, status := 0,
    bw := 0, bh := 0, rowbytes := 0, bpol := 0, outw := 0, outh := 0, factor := 0 }

/-- No buffer offered: the source port before the collaborator has one (log entry 18). -/
def PixelBuffer.absent : PixelBuffer := { width := 0, height := 0, pixels := [], steady := true }

/-- The machine right after power-on and hardware reset (R42, R185): every register at its reset value,
the empty raster, no scaled buffer, nothing emitted, no command in progress. What stands outside the block
is as log entry 18 says. -/
def State.reset : State :=
  { regs := RegFile.reset, bits := [], dst := [], out := [], output := [], responses := [],
    pending := [], src := PixelBuffer.absent, shown := [], draws := 0, params := Params.default }

end Sys2Proof.Machine
end

