-- ==== Sys2Proof/Machine/Flags.lean ====
section
/-! DEFINITION. The completion codes (R160) and the sticky error flags of STATUS (R28): the only flags the
block has. -/

namespace Sys2Proof.Machine

/-- The completion code of success (R160). -/
def okCode : BitVec 8 := 0

/-- The completion code of an error kind (R160). -/
def errorCode : ErrorKind → BitVec 8
  | .invalidDimension => 1
  | .decodeFailure    => 2
  | .illegalCommand   => 3
  | .factorUnderflow  => 4
  | .capacityExceeded => 5

/-- STATUS with the flag of an error kind set, the bit whose index is its code, the others as they were
(R28, R166 item 2). -/
def setErrorFlag (status : RegWord) (e : ErrorKind) : RegWord :=
  status ||| (1 : RegWord) <<< (errorCode e).toNat

end Sys2Proof.Machine
end

