-- ==== Sys2Proof/Machine/Operands.lean ====
section
/-! DEFINITION. The register operands: register numbers (R22, R34, R80), what a read of a register gives
and what a write stores (R22), which values WRREG may write (R91), and the fields of CTRL (R27). -/

namespace Sys2Proof.Machine

/-- The register a number names; 15 to 255 name none (R22, R34). -/
def regOfNumber (n : BitVec 8) : Option Reg :=
  match n.toNat with
  | 0  => some .srcw
  | 1  => some .srch
  | 2  => some .maxw
  | 3  => some .maxh
  | 4  => some .maxf
  | 5  => some .thresh
  | 6  => some .ctrl
  | 7  => some .status
  | 8  => some .bw
  | 9  => some .bh
  | 10 => some .rowbytes
  | 11 => some .bpol
  | 12 => some .outw
  | 13 => some .outh
  | 14 => some .factor
  | _  => none

/-- The bits of a register that are used (R22); of STATUS, those that are a flag (R28). -/
def usedBits : Reg → RegWord
  | .srcw | .srch | .maxw | .maxh | .maxf => 0xFFFF
  | .thresh   => 0x00FF
  | .ctrl     => 0x0003
  | .status   => 0x003A
  | .bw | .bh => 0xFFFF
  | .rowbytes => 0x3FFF
  | .bpol     => 0x0001
  | .outw | .outh | .factor => 0xFFFF

/-- The sixteen bits held for a register. -/
def RegFile.held (f : RegFile) : Reg → RegWord
  | .srcw => f.srcw | .srch => f.srch | .maxw => f.maxw | .maxh => f.maxh | .maxf => f.maxf
  | .thresh => f.thresh | .ctrl => f.ctrl | .status => f.status | .bw => f.bw | .bh => f.bh
  | .rowbytes => f.rowbytes | .bpol => f.bpol | .outw => f.outw | .outh => f.outh | .factor => f.factor

/-- `x[NAME]`: a read of a register (R9). "Bits of a register outside 'Bits used' read as 0" (R22). -/
def RegFile.read (f : RegFile) (r : Reg) : RegWord := f.held r &&& usedBits r

/-- `x[NAME] <- v`: a write of a register (R9). -/
def RegFile.write (f : RegFile) (r : Reg) (v : RegWord) : RegFile :=
  match r with
  | .srcw     => { f with srcw := v }
  | .srch     => { f with srch := v }
  | .maxw     => { f with maxw := v }
  | .maxh     => { f with maxh := v }
  | .maxf     => { f with maxf := v }
  | .thresh   => { f with thresh := v }
  | .ctrl     => { f with ctrl := v }
  | .status   => { f with status := v }
  | .bw       => { f with bw := v }
  | .bh       => { f with bh := v }
  | .rowbytes => { f with rowbytes := v }
  | .bpol     => { f with bpol := v }
  | .outw     => { f with outw := v }
  | .outh     => { f with outh := v }
  | .factor   => { f with factor := v }

/-- Whether WRREG may write `imm` to a register: registers 0 to 6 only, THRESH at most 255, CTRL with bits
15 to 2 zero (R91). -/
def regAccepts (r : Reg) (imm : RegWord) : Bool :=
  match r with
  | .srcw | .srch | .maxw | .maxh | .maxf => true
  | .thresh => decide (imm.toNat ≤ 255)
  | .ctrl   => decide (imm.extractLsb' 2 14 = 0)
  | .status | .bw | .bh | .rowbytes | .bpol | .outw | .outh | .factor => false

/-- A read of a register of the block. -/
def State.reg (s : State) (r : Reg) : RegWord := s.regs.read r

/-- A register read as an unsigned number (R8). -/
def State.num (s : State) (r : Reg) : Nat := (s.reg r).toNat

/-- `CTRL.POL`: true is lightIsOne, false darkIsOne (R27). -/
def State.ctrlPol (s : State) : Bool := (s.reg .ctrl).getLsbD 0

/-- `CTRL.FMT`: true is GRAY8, false RGB888 (R27, R53). -/
def State.ctrlFmt (s : State) : Bool := (s.reg .ctrl).getLsbD 1

/-- `BPOL`: the polarity the raster in BITS was made with (R31). -/
def State.rasterPol (s : State) : Bool := (s.reg .bpol).getLsbD 0

end Sys2Proof.Machine
end

