-- ==== Sys2Proof/Machine/Ops.lean ====
section
/-! DEFINITION. The named operations over registers, stores and ports, and how a command ends: the success
completion (R77) and the error completion (R166), each once for all commands. -/

namespace Sys2Proof.Machine

/-- The response word `code, 0, data` (R77). -/
def responseWord (code : BitVec 8) (data : RegWord) : RespWord := code ++ (0 : BitVec 8) ++ data

/-- `x[NAME] <- v` on the state (R9). -/
def State.setReg (s : State) (r : Reg) (v : RegWord) : State := { s with regs := s.regs.write r v }

/-- The BITS store replaced whole (R35, R66). -/
def State.setBits (s : State) (bits : List Bool) : State := { s with bits := bits }

/-- The DST store replaced whole (R36, R66). -/
def State.setDst (s : State) (dst : List Pixel) : State := { s with dst := dst }

/-- The end of a command: its bytes appended to OUT after every byte emitted before (R55), its one response
word produced (R77). -/
def State.finish (s : State) (resp : RespWord) (bytes : List Byte) : State :=
  { s with out := s.out ++ bytes, output := bytes, responses := s.responses ++ [resp] }

/-- The next input taken from those that wait, under the next draw number (R60; log entry 19). -/
def State.take (s : State) (rest : List Event) : State := { s with pending := rest, draws := s.draws + 1 }

/-- Every register, BITS and DST at its reset value (R42, R94, R185). OUT keeps what was emitted before and
gets nothing (R187); what stands outside the block is untouched. -/
def State.resetBlock (s : State) : State :=
  { s with regs := RegFile.reset, bits := [], dst := [], output := [] }

/-- A command completes with code 0, response data `data`, and output `bytes` (R77, R160). -/
def complete (data : RegWord) (bytes : List Byte) (s : State) : Host.Outcome State Fault Refusal :=
  .next (s.finish (responseWord okCode data) bytes)

/-- ERROR COMPLETION, the block's "exception" (`raise E`, R9, R166): the flag of `e` is set in STATUS, the
response is `code << 24`, nothing is emitted, and nothing else changes. There is no return from it, because
nothing is entered: the block accepts the next command (R166 item 4, R168). -/
def raise (e : ErrorKind) (s : State) : Host.Outcome State Fault Refusal :=
  .next ((s.setReg .status (setErrorFlag (s.reg .status) e)).finish (responseWord (errorCode e) 0) [])

/-- A two-dimensional buffer `f` of width `w` and height `h` as its elements in row-major order: column `x`,
row `y` at linear index `y*w + x` (R51). -/
def rowMajor {α : Type} (w h : Nat) (f : Nat → Nat → α) : List α :=
  (List.range (w * h)).map fun i => f (i % w) (i / w)

/-- The word a buffer holds for column `x`, row `y`, if it is steady and has that position (R52). -/
def PixelBuffer.word (b : PixelBuffer) (x y : Nat) : Option Pixel :=
  if b.steady ∧ x < b.width ∧ y < b.height then b.pixels[y * b.width + x]? else none

/-- `SrcRead(x, y)`, made for the element of linear index `k` of the result (R52). Where the collaborator's
buffer gives no word, or changes during the command, the answer is free (R192, U3; log entries 2, 3). -/
def State.srcRead (s : State) (k x y : Nat) : Pixel :=
  (s.src.word x y).getD (Config.srcAnswer s.draws k x y)

/-- `BITS[y][x]` (R35, R51). -/
def State.bit (s : State) (x y : Nat) : Bool :=
  (s.bits[y * s.num .bw + x]?).getD (Config.bitsStorage (y * s.num .bw + x))

/-- `DstRead(ox, oy)` (R54): the word of DST inside `OUTW × OUTH`; any value outside it, and at any position
while a command runs (R194, U1; log entry 4). -/
def State.dstRead (s : State) (busy : Bool) (ox oy : Nat) : Pixel :=
  if busy = false ∧ ox < s.num .outw ∧ oy < s.num .outh then
    (s.dst[oy * s.num .outw + ox]?).getD (Config.dstAnswer s.draws)
  else Config.dstAnswer s.draws

/-- `ceil8(w) = (w + 7) div 8` (R8). -/
def ceil8 (w : Nat) : Nat := (w + 7) / 8

/-- Whether the two stores are in canonical form: each lists exactly the elements of its window, so that
equal rasters and equal buffers are equal data (R35, R36; log entry 8). -/
abbrev Memory.wf (s : State) : Prop :=
  s.bits.length = s.num .bw * s.num .bh ∧ s.dst.length = s.num .outw * s.num .outh

end Sys2Proof.Machine
end

