-- ==== Sys2Proof/Machine/Binarizer.lean ====
section
/-! DEFINITION. The binarizer (spec/42_binarizer.md): luma, threshold, polarity, and TOBIN. -/

namespace Sys2Proof.Machine

/-- The luma of an RGB888 pixel (R121). -/
def lumaRgb (p : Pixel) : Nat :=
  (299 * (p.extractLsb' 16 8).toNat + 587 * (p.extractLsb' 8 8).toNat + 114 * (p.extractLsb' 0 8).toNat
    + 500) / 1000

/-- The luma of a GRAY8 pixel (R122). -/
def lumaGray (p : Pixel) : Nat := (p.extractLsb' 0 8).toNat

/-- The luma of a pixel by CTRL.FMT: true is GRAY8 (R120 step 1). -/
def luma (fmt : Bool) (p : Pixel) : Nat := if fmt then lumaGray p else lumaRgb p

/-- `light`: the luma is at least the threshold (R123). -/
def isLight (thresh y : Nat) : Bool := decide (thresh ≤ y)

/-- The bit of a light or dark pixel by CTRL.POL: true is lightIsOne (R124). -/
def polarize (pol light : Bool) : Bool := if pol then light else !light

/-- The bit of a pixel word: the three steps of R120. -/
def pixelBit (fmt pol : Bool) (thresh : Nat) (p : Pixel) : Bool := polarize pol (isLight thresh (luma fmt p))

/-- The bits of the source image under the settings in force (R125). -/
def binarized (s : State) : List Bool :=
  rowMajor (s.num .srcw) (s.num .srch) fun x y =>
    pixelBit s.ctrlFmt s.ctrlPol (s.num .thresh) (s.srcRead (y * s.num .srcw + x) x y)

/-- BITS, BW, BH, ROWBYTES and BPOL after a successful TOBIN (R125). -/
def State.putRaster (s : State) : State :=
  ((((s.setBits (binarized s)).setReg .bw (s.reg .srcw)).setReg .bh (s.reg .srch)).setReg .rowbytes
    (BitVec.ofNat 16 (ceil8 (s.num .srcw)))).setReg .bpol (if s.ctrlPol then 1 else 0)

/-- TOBIN (R125): the source pixel buffer binarized into BITS, if BITS can hold it (R165). -/
def execTobin (s : State) : Host.Outcome State Fault Refusal :=
  if s.params.bitsCap < s.num .srcw * s.num .srch then raise .capacityExceeded s
  else complete 0 [] s.putRaster

end Sys2Proof.Machine
end

