-- ==== Sys2Proof/Machine/Control.lean ====
section
/-! DEFINITION. The configuration and control commands (spec/40_config_commands.md): NOP, WRREG, RDREG,
CLRERR, SRESET, and the completion of an illegal word (R76, R163). -/

namespace Sys2Proof.Machine

/-- NOP (R90): no state is read or written; the response is 0. -/
def execNop (s : State) : Host.Outcome State Fault Refusal := complete 0 [] s

/-- WRREG (R91): IllegalCommand unless `reg` names a writable register that takes `imm`; then that register
holds `imm`. -/
def execWrreg (reg : BitVec 8) (imm : RegWord) (s : State) : Host.Outcome State Fault Refusal :=
  match regOfNumber reg with
  | none   => raise .illegalCommand s
  | some r => if regAccepts r imm then complete 0 [] (s.setReg r imm) else raise .illegalCommand s

/-- RDREG (R92): IllegalCommand unless `reg` names a register; then its value is the response's data. -/
def execRdreg (reg : BitVec 8) (s : State) : Host.Outcome State Fault Refusal :=
  match regOfNumber reg with
  | none   => raise .illegalCommand s
  | some r => complete (s.reg r) [] s

/-- CLRERR (R93): STATUS becomes 0. -/
def execClrerr (s : State) : Host.Outcome State Fault Refusal := complete 0 [] (s.setReg .status 0)

/-- SRESET (R94): the state after hardware reset, and a response of 0. -/
def execSreset (s : State) : Host.Outcome State Fault Refusal := complete 0 [] s.resetBlock

/-- A word the decoder calls Illegal: an error completion with IllegalCommand (R76, R163). -/
def illegalWord (s : State) : Host.Outcome State Fault Refusal := raise .illegalCommand s

end Sys2Proof.Machine
end

