-- ==== Sys2Proof/Machine/Packer.lean ====
section
/-! DEFINITION. The bit-packer and encoder (spec/43_packer_encoder.md): the packed bytes, PACK, the text of
the array literal, and ENCODE. -/

namespace Sys2Proof.Machine

/-- `pb(y, x)`: the bit of a pixel, 0 at and beyond BW (R136). -/
def paddedBit (s : State) (x y : Nat) : Bool := if x < s.num .bw then s.bit x y else false

/-- `PackedByte(y, j)`: MSB-first, the leftmost pixel in bit 7 (R56, R136). -/
def packedByte (s : State) (y j : Nat) : Byte :=
  BitVec.ofNat 8 (((List.range 8).map fun k => (paddedBit s (8 * j + k) y).toNat <<< (7 - k)).sum)

/-- `rb`, the number of bytes of a packed row (R135). -/
def rowByteWidth (s : State) : Nat := ceil8 (s.num .bw)

/-- `Packed`, the packed bytes in row-major order (R137). -/
def packed (s : State) : List Byte :=
  rowMajor (rowByteWidth s) (s.num .bh) fun j y => packedByte s y j

/-- PACK (R139): the packed bytes appended to OUT. -/
def execPack (s : State) : Host.Outcome State Fault Refusal := complete 0 (packed s) s

/-- The ASCII codes of the characters of the text that are not digits (R144). -/
def asciiNewline : Byte := 0x0A
def asciiComma : Byte := 0x2C
def asciiSemicolon : Byte := 0x3B
def asciiX : Byte := 0x78
def asciiOpenBrace : Byte := 0x7B
def asciiCloseBrace : Byte := 0x7D

/-- `DigitCode(d)`: `0x30 + d` up to 9, `0x57 + d` from 10 to 15 (R144). -/
def digitCode (d : Nat) : Byte := if d ≤ 9 then BitVec.ofNat 8 (0x30 + d) else BitVec.ofNat 8 (0x57 + d)

/-- `HexToken(b)`: `0x` and the lower-case hexadecimal digits of `b` without leading zeros (R141). -/
def hexToken (b : Byte) : List Byte :=
  [digitCode 0, asciiX] ++ (if 16 ≤ b.toNat then [digitCode (b.toNat / 16)] else [])
    ++ [digitCode (b.toNat % 16)]

/-- One byte token with its comma, which every token but the last of the whole text has (R142). -/
def tokenText (s : State) (y j : Nat) : List Byte :=
  hexToken (packedByte s y j)
    ++ (if y + 1 = s.num .bh ∧ j + 1 = rowByteWidth s then [] else [asciiComma])

/-- The line of one raster row (R140 item 2). -/
def rowText (s : State) (y : Nat) : List Byte :=
  (List.range (rowByteWidth s)).flatMap (fun j => tokenText s y j) ++ [asciiNewline]

/-- CodeText (R140, R147): the opening line, the row lines unless the raster is empty, the closing line. -/
def codeText (s : State) : List Byte :=
  [asciiOpenBrace, asciiNewline]
    ++ (if s.num .bw ≠ 0 ∧ s.num .bh ≠ 0 then (List.range (s.num .bh)).flatMap (fun y => rowText s y) else [])
    ++ [asciiCloseBrace, asciiSemicolon, asciiNewline]

/-- ENCODE (R146): the text of the array literal appended to OUT. -/
def execEncode (s : State) : Host.Outcome State Fault Refusal := complete 0 (codeText s) s

/-- The value of a hexadecimal digit's code, 0 for any other byte (R144). -/
def digitValue (c : Byte) : Nat :=
  if 0x30 ≤ c.toNat ∧ c.toNat ≤ 0x39 then c.toNat - 0x30
  else if 0x61 ≤ c.toNat ∧ c.toNat ≤ 0x66 then c.toNat - 0x57 else 0

/-- The value of one token of the text, read as a hexadecimal number (R150). -/
def tokenValue (token : List Byte) : Byte :=
  BitVec.ofNat 8 ((token.drop 2).foldl (fun v c => 16 * v + digitValue c) 0)

/-- The tokens between the commas; no token where there is no byte at all (R150). -/
def splitCommas (cur : List Byte) : List Byte → List (List Byte)
  | []      => if cur = [] then [] else [cur]
  | c :: cs => if c = asciiComma then cur :: splitCommas [] cs else splitCommas (cur ++ [c]) cs

/-- What a consumer reads back from ENCODE's output: braces, semicolon and newlines dropped, split at
commas, each token read as a hexadecimal number (R150). -/
def readBack (text : List Byte) : List Byte :=
  (splitCommas [] (text.filter fun c =>
    c != asciiOpenBrace && c != asciiCloseBrace && c != asciiSemicolon && c != asciiNewline)).map tokenValue

end Sys2Proof.Machine
end

