-- ==== Sys2Proof/Machine/Scaler.lean ====
section
/-! DEFINITION. The scaler (spec/41_scaler.md): SCALEP and SCALEB over one scale operation. -/

namespace Sys2Proof.Machine

/-- `F = min(MAXF, MAXW div W, MAXH div H)` (R103). -/
def scaleFactor (s : State) (w h : Nat) : Nat :=
  min (s.num .maxf) (min (s.num .maxw / w) (s.num .maxh / h))

/-- The scaled image: element `(ox, oy)` of the `F*W × F*H` result is `pix(ox div F, oy div F)` (R106).
`pix` also takes the element's linear index, for the answers of an unsteady source buffer. -/
def scaledImage (f w h : Nat) (pix : Nat → Nat → Nat → Pixel) : List Pixel :=
  rowMajor (f * w) (f * h) fun ox oy => pix (oy * (f * w) + ox) (ox / f) (oy / f)

/-- DST, OUTW, OUTH and FACTOR after a successful scale command (R105, R106, R109, R110). -/
def State.putScaled (s : State) (f w h : Nat) (pix : Nat → Nat → Nat → Pixel) : State :=
  (((s.setDst (scaledImage f w h pix)).setReg .outw (BitVec.ofNat 16 (f * w))).setReg .outh
    (BitVec.ofNat 16 (f * h))).setReg .factor (BitVec.ofNat 16 f)

/-- The scale operation on an image of width `w`, height `h` and pixels `pix` (R100): the checks of R102,
R103 and R105 in that order (R167), then the scaled buffer. -/
def scale (w h : Nat) (pix : Nat → Nat → Nat → Pixel) (s : State) : Host.Outcome State Fault Refusal :=
  if w = 0 ∨ h = 0 ∨ s.num .maxw = 0 ∨ s.num .maxh = 0 ∨ s.num .maxf = 0 then
    raise .invalidDimension s
  else if scaleFactor s w h = 0 then raise .factorUnderflow s
  else if s.params.dstCap < (scaleFactor s w h * w) * (scaleFactor s w h * h) then
    raise .capacityExceeded s
  else complete 0 [] (s.putScaled (scaleFactor s w h) w h pix)

/-- `Expand`: a raster bit as a pixel word, by the polarity the raster was made with (R108). -/
def expandBit (pol b : Bool) : Pixel := if b ^^ !pol then white else black

/-- SCALEP (R109): the source pixel buffer scaled into DST. -/
def execScalep (s : State) : Host.Outcome State Fault Refusal :=
  scale (s.num .srcw) (s.num .srch) (fun k x y => s.srcRead k x y) s

/-- SCALEB (R110): the binary raster scaled into DST as a black-and-white image. -/
def execScaleb (s : State) : Host.Outcome State Fault Refusal :=
  scale (s.num .bw) (s.num .bh) (fun _ x y => expandBit s.rasterPol (s.bit x y)) s

end Sys2Proof.Machine
end

