-- ==== Sys2Proof/Machine/Dispatch.lean ====
section
/-! DEFINITION. One arm per command: the one place that says which definition is a command's meaning. -/

namespace Sys2Proof.Machine

/-- The effect of a command on the state. -/
def exec (i : Instr) (s : State) : Host.Outcome State Fault Refusal :=
  match i with
  | .nop => Sys2Proof.Machine.execNop s
  | .wrreg reg imm => Sys2Proof.Machine.execWrreg reg imm s
  | .rdreg reg => Sys2Proof.Machine.execRdreg reg s
  | .clrerr => Sys2Proof.Machine.execClrerr s
  | .sreset => Sys2Proof.Machine.execSreset s
  | .scalep => Sys2Proof.Machine.execScalep s
  | .scaleb => Sys2Proof.Machine.execScaleb s
  | .tobin => Sys2Proof.Machine.execTobin s
  | .pack => Sys2Proof.Machine.execPack s
  | .encode => Sys2Proof.Machine.execEncode s

end Sys2Proof.Machine
end

