-- ==== Sys2Proof/Machine/Events.lean ====
section
/-! DEFINITION. What each input does: a command word (R60, R75, R76), a new source buffer (R192), hardware
reset while idle (R185) or while a command runs (R186), a read of the DST port (R54), bytes taken by the
sink (R37); and several blocks side by side (R174). -/

namespace Sys2Proof.Machine

/-- A command word: decoded, then executed; a word the decoder calls Illegal completes as IllegalCommand
(R75, R76). -/
def runWord (word : CmdWord) (s : State) : Host.Outcome State Fault Refusal :=
  match decode word with
  | .command i => exec i s
  | .illegal _ => illegalWord s

/-- The bytes an outcome's command emitted. -/
def emitted : Host.Outcome State Fault Refusal → List Byte
  | .next t    => t.output
  | .fault _   => []
  | .refused _ => []

/-- Hardware reset while `word` runs (R186): no response, the reset state, and some prefix of the command's
output emitted, of a length the spec leaves open (U2; log entry 5). -/
def abandonWord (word : CmdWord) (s : State) : State :=
  let sent := (emitted (runWord word s)).take (Config.abandonedCount s.draws)
  { s.resetBlock with out := s.out ++ sent, output := sent }

/-- One input, served. -/
def serve (e : Event) (s : State) : Host.Outcome State Fault Refusal :=
  match e with
  | .command word           => runWord word s
  | .offerSource buffer     => .next { s with src := buffer }
  | .hardwareReset          => .next s.resetBlock
  | .resetDuring word       => .next (abandonWord word s)
  | .displayRead busy ox oy => .next { s with shown := s.shown ++ [s.dstRead busy ox.toNat oy.toNat] }
  | .sinkTake n             => .next { s with out := s.out.drop n }

/-- The next input, if one waits; otherwise the block is idle and holds its state (R175; log entry 7). -/
def serveNext (s : State) : Host.Outcome State Fault Refusal :=
  match s.pending with
  | []        => .next s
  | e :: rest => serve e (s.take rest)

/-- Block number `k` of several takes one step; the others hold their state (R174; log entry 17). Where there
is no such block nothing happens. DESIGN CHOICE: the free values are indexed by a block's draw number and not by the
block, so two blocks at equal draw numbers draw equal ones, which the spec does not say (log entry 23). -/
def stepBlock (k : Nat) (blocks : List State) : Host.Outcome (List State) Fault Refusal :=
  match blocks[k]? with
  | none   => .next blocks
  | some s =>
    match serveNext s with
    | .next t    => .next (blocks.set k t)
    | .fault r   => .fault r
    | .refused r => .refused r

end Sys2Proof.Machine
end

