-- ==== Sys2Proof/Machine/Step.lean ====
section
/-! DEFINITION. One step of the machine, and the placing of one command word where it is taken next. -/

namespace Sys2Proof.Machine

/-- One step: the next waiting input is served (R60). -/
def step (s : State) : Host.Outcome State Fault Refusal := serveNext s

/-- `s` with a command word of the table given by the host, to be taken before everything that waits. -/
def State.withFetchWord (s : State) (nbits w : Nat) : State :=
  { s with pending := .command (tableWord nbits w) :: s.pending }

end Sys2Proof.Machine
end

