-- ==== Sys2Proof/Safety.lean ====
section
/-! DEFINITION. What holds between commands in every reachable state (R41), and the terms the statements
use. -/

namespace Sys2Proof.Machine

/-- Item 4 of R41: no scaled buffer, or a positive factor that divides both dimensions. -/
abbrev ScaledOk (s : State) : Prop :=
  (s.num .factor = 0 ∧ s.num .outw = 0 ∧ s.num .outh = 0) ∨
    (1 ≤ s.num .factor ∧ 1 ≤ s.num .outw ∧ 1 ≤ s.num .outh ∧
      s.num .outw % s.num .factor = 0 ∧ s.num .outh % s.num .factor = 0)

/-- Item 5 of R41, of the sixteen bits held: THRESH, CTRL, STATUS and BPOL hold nothing outside their used
bits. -/
abbrev FieldsOk (s : State) : Prop :=
  s.regs.thresh.toNat ≤ 255 ∧ s.regs.ctrl.toNat ≤ 3 ∧ s.regs.status &&& 0xFFC5 = 0 ∧ s.regs.bpol.toNat ≤ 1

/-- The five relations of R41, and the canonical form of the two stores (R35, R36). -/
abbrev BlockInv (s : State) : Prop :=
  s.regs.rowbytes.toNat = ceil8 (s.num .bw) ∧
  s.num .bw * s.num .bh ≤ s.params.bitsCap ∧
  s.num .outw * s.num .outh ≤ s.params.dstCap ∧
  ScaledOk s ∧ FieldsOk s ∧ Memory.wf s

/-- The source collaborator does its duty for a command (R52, R192): its buffer is steady and has a word for
every position of the window SRCW × SRCH. -/
abbrev SourceCovers (s : State) : Prop :=
  s.src.steady = true ∧ s.num .srcw ≤ s.src.width ∧ s.num .srch ≤ s.src.height ∧
    s.src.pixels.length = s.src.width * s.src.height

/-- What stands outside the block and the implementation's parameters are as before: no command touches
them. -/
def SameSurroundings (s t : State) : Prop :=
  t.pending = s.pending ∧ t.src = s.src ∧ t.shown = s.shown ∧ t.draws = s.draws ∧ t.params = s.params

/-- Every register but those listed reads as before. -/
def SameRegsBut (changed : List Reg) (s t : State) : Prop := ∀ r, r ∉ changed → t.reg r = s.reg r

/-- Both stores are as before. -/
def SameStores (s t : State) : Prop := t.bits = s.bits ∧ t.dst = s.dst

/-- A command succeeded: one response with code 0 and these data, these bytes appended to OUT, the
surroundings untouched (R55, R77). -/
def Answered (data : RegWord) (bytes : List Byte) (s t : State) : Prop :=
  t.responses = s.responses ++ [data.zeroExtend 32] ∧ t.output = bytes ∧ t.out = s.out ++ bytes ∧
    SameSurroundings s t

/-- The error completion of R166: bit `k` of STATUS is set for the code `k` and the others keep their values,
the response is `k << 24`, and nothing else changes. -/
def ErrorCompletion (e : ErrorKind) (s t : State) : Prop :=
  (∀ k < 16, (t.reg .status).getLsbD k = ((s.reg .status).getLsbD k || decide (k = (errorCode e).toNat))) ∧
    SameRegsBut [.status] s t ∧ SameStores s t ∧ t.out = s.out ∧ t.output = [] ∧
    t.responses = s.responses ++ [((errorCode e).zeroExtend 32) <<< 24] ∧ SameSurroundings s t

/-- The command fails with an error of this kind (R166). -/
def FailsWith (e : ErrorKind) (i : Instr) (s : State) : Prop :=
  ∃ t, exec i s = .next t ∧ ErrorCompletion e s t

/-- The code field of a response (R77). -/
def codeField (r : RespWord) : BitVec 8 := r.extractLsb' 24 8

/-- The seven cases of R76, by the opcode, register and immediate of a word and its 24 operand bits together:
reserved opcode; operand bits of a format-Z word; immediate of an RDREG word; no such register; a read-only
register; THRESH above 255; a reserved bit of CTRL. -/
abbrev IsIllegalCase (op reg imm operand : Nat) : Prop :=
  op ∉ [0x00, 0x01, 0x02, 0x03, 0x04, 0x10, 0x11, 0x20, 0x30, 0x31] ∨
  (op ∈ [0x00, 0x03, 0x04, 0x10, 0x11, 0x20, 0x30, 0x31] ∧ operand ≠ 0) ∨
  (op = 0x02 ∧ imm ≠ 0) ∨
  ((op = 0x01 ∨ op = 0x02) ∧ 15 ≤ reg) ∨
  (op = 0x01 ∧ 7 ≤ reg ∧ reg ≤ 14) ∨
  (op = 0x01 ∧ reg = 5 ∧ 255 < imm) ∨
  (op = 0x01 ∧ reg = 6 ∧ imm / 4 ≠ 0)

/-- A word R76 calls illegal, to decode or to execute. -/
abbrev IsIllegalWord (c : CmdWord) : Prop :=
  IsIllegalCase (c.extractLsb' 24 8).toNat (c.extractLsb' 16 8).toNat (c.extractLsb' 0 16).toNat
    (c.extractLsb' 0 24).toNat

/-- The registers a command reads (R62). -/
def readsOf : Instr → List Reg
  | .nop | .wrreg _ _ | .clrerr | .sreset => []
  | .rdreg reg     => (regOfNumber reg).toList
  | .scalep        => [.srcw, .srch, .maxw, .maxh, .maxf]
  | .scaleb        => [.bw, .bh, .bpol, .maxw, .maxh, .maxf]
  | .tobin         => [.srcw, .srch, .thresh, .ctrl]
  | .pack          => [.bw, .bh]
  | .encode        => [.bw, .bh]

/-- The registers a successful command writes (R62); an error may in addition set a flag of STATUS. -/
def writesOf : Instr → List Reg
  | .nop | .rdreg _ | .pack | .encode => []
  | .wrreg reg _ => (regOfNumber reg).toList.filter fun r => decide ((regNumber r).toNat ≤ 6)
  | .clrerr => [.status]
  | .sreset =>
    [.srcw, .srch, .maxw, .maxh, .maxf, .thresh, .ctrl, .status, .bw, .bh, .rowbytes, .bpol, .outw, .outh,
     .factor]
  | .scalep => [.outw, .outh, .factor]
  | .scaleb => [.outw, .outh, .factor]
  | .tobin  => [.bw, .bh, .rowbytes, .bpol]

/-- The ASCII codes of the sixteen lower-case hexadecimal digits (R144). -/
def hexDigits : List Byte :=
  [0x30, 0x31, 0x32, 0x33, 0x34, 0x35, 0x36, 0x37, 0x38, 0x39, 0x61, 0x62, 0x63, 0x64, 0x65, 0x66]

/-- The token of a byte, from the table of R144: `0x`, then one digit below 16 and two from 16 on (R141). -/
def tokenOf (b : Byte) : List Byte :=
  if b.toNat < 16 then [0x30, 0x78, hexDigits.getD b.toNat 0]
  else [0x30, 0x78, hexDigits.getD (b.toNat / 16) 0, hexDigits.getD (b.toNat % 16) 0]

/-- The text of a non-empty array whose rows are given as bytes: every token of a row but the last row is
followed by a comma, the tokens of the last row are separated by commas (R140, R142). -/
def arrayText (rows : List (List Byte)) : List Byte :=
  [0x7B, 0x0A] ++
    rows.dropLast.flatMap (fun row => row.flatMap (fun b => tokenOf b ++ [0x2C]) ++ [0x0A]) ++
    (List.intercalate [0x2C] ((rows.getLastD []).map tokenOf) ++ [0x0A]) ++ [0x7D, 0x3B, 0x0A]

/-- The packed bytes of the raster, row by row (R137). -/
def packedRows (s : State) : List (List Byte) :=
  (List.range (s.num .bh)).map fun y => (List.range ((s.num .bw + 7) / 8)).map fun j => packedByte s y j

/-- A safe run: one in which no step stops. Every run of this machine is one (R76, R169, R197). -/
def StepsSafely (s : State) : Prop := ∃ t, step s = .next t

end Sys2Proof.Machine
end

