-- ==== Sys2Proof/Certificates/Slice0/Obligations.lean ====
section
/-! DEFINITION. The statements about the model, each from the rules of spec/ its docstring names. -/

open Sys2Proof Sys2Proof.Machine

/-! ### Encoding and decoding -/

/-- R72, R74: each word is the word of at most one command, with every operand at every value, and the word of
a command decodes to that command and to no other. -/
def Obligations.WordDecodesExactlyToTheCommandItEncodes : Prop :=
  ∀ (c : CmdWord) (i : Instr), decode c = .command i ↔ c = encode i

/-- R74, R75: the decoder by the three fields of the word and the opcode map; what it leaves to execution (a register
that does not exist or is not writable, an immediate the register does not take) is the same error there. -/
def Obligations.DecoderFollowsTheOpcodeMap : Prop :=
  ∀ c : CmdWord,
    let op := (c.extractLsb' 24 8).toNat
    let reg := c.extractLsb' 16 8
    let imm := c.extractLsb' 0 16
    (∀ p ∈ ([(0x00, .nop), (0x03, .clrerr), (0x04, .sreset), (0x10, .scalep), (0x11, .scaleb),
        (0x20, .tobin), (0x30, .pack), (0x31, .encode)] : List (Nat × Instr)), op = p.1 →
      if reg ≠ 0 ∨ imm ≠ 0 then ∃ why, decode c = .illegal why else decode c = .command p.2) ∧
    (op = 0x02 → if imm ≠ 0 then ∃ why, decode c = .illegal why else decode c = .command (.rdreg reg)) ∧
    (op = 0x01 → decode c = .command (.wrreg reg imm)) ∧
    (op ∉ [0x00, 0x01, 0x02, 0x03, 0x04, 0x10, 0x11, 0x20, 0x30, 0x31] → ∃ why, decode c = .illegal why) ∧
    (∀ i s, decode c = .command i → i.wellFormed = false → FailsWith .illegalCommand i s)

/-- R72: the match and mask rows of the opcode table say the same as the decoder, and no word matches two. -/
def Obligations.TableRowsAgreeWithTheDecoder : Prop :=
  ∀ c : CmdWord,
    (∀ r ∈ tableRows, (r.covers c = true ↔ ∃ i, decode c = .command i ∧ tableRow i = r)) ∧
    (∀ r₁ ∈ tableRows, ∀ r₂ ∈ tableRows, r₁.covers c = true → r₂.covers c = true → r₁ = r₂)

/-- R78: the words of the assembler's table, by its arithmetic. -/
def Obligations.AssembledWordsFollowTheFormulas : Prop :=
  encode .nop = 0x00000000 ∧ encode .clrerr = 0x03000000 ∧ encode .sreset = 0x04000000 ∧
  encode .scalep = 0x10000000 ∧ encode .scaleb = 0x11000000 ∧ encode .tobin = 0x20000000 ∧
  encode .pack = 0x30000000 ∧ encode .encode = 0x31000000 ∧
  ∀ (reg : BitVec 8) (imm : RegWord),
    encode (.wrreg reg imm) = 0x01000000 + (reg.zeroExtend 32 <<< 16) + imm.zeroExtend 32 ∧
    encode (.rdreg reg) = 0x02000000 + (reg.zeroExtend 32 <<< 16)

/-- R79: the words of the pseudo-commands, in their order. -/
def Obligations.PseudoCommandsExpandToTheirWords : Prop :=
  (∀ w h : RegWord, (expandPseudo (.setsrc w h)).map encode =
    [0x01000000 + w.zeroExtend 32, 0x01010000 + h.zeroExtend 32]) ∧
  (∀ mw mh mf : RegWord, (expandPseudo (.setbox mw mh mf)).map encode =
    [0x01020000 + mw.zeroExtend 32, 0x01030000 + mh.zeroExtend 32, 0x01040000 + mf.zeroExtend 32]) ∧
  (expandPseudo .convert).map encode = [0x20000000, 0x31000000] ∧
  (expandPseudo .preview).map encode = [0x10000000, 0x20000000, 0x11000000] ∧
  ∀ (p : Pseudo) (i : Instr) (s : State), i ∈ expandPseudo p →
    ∃ t r, exec i s = .next t ∧ t.responses = s.responses ++ [r]

/-- spec/95_test_vectors.md: words of the spec decode to the commands it names. SCALEB, TOBIN and PACK are from the
programs P1 and P5 of section 3 and from R74, the others from V10 to V19m of section 2.1. -/
def Obligations.WordsOfTheSpecDecode : Prop :=
  decode 0x00000000 = .command .nop ∧ decode 0x01000140 = .command (.wrreg 0 320) ∧
  decode 0x01060003 = .command (.wrreg 6 3) ∧ decode 0x02030000 = .command (.rdreg 3) ∧
  decode 0x03000000 = .command .clrerr ∧ decode 0x04000000 = .command .sreset ∧
  decode 0x10000000 = .command .scalep ∧ decode 0x11000000 = .command .scaleb ∧
  decode 0x20000000 = .command .tobin ∧ decode 0x30000000 = .command .pack ∧
  decode 0x31000000 = .command .encode ∧ decode 0x00000001 = .illegal (.nonzeroOperandZ 0 1) ∧
  decode 0x02020001 = .illegal (.nonzeroImmR 1) ∧ decode 0x12000000 = .illegal (.reservedOpcode 0x12)

/-! ### Steps, responses, errors -/

/-- R60, R75: a step takes the next input; a word that decodes to a command runs that command, a word that
decodes to none completes as IllegalCommand, and all that `take` adds is the input gone and the model's draw
counter advanced (log entries 6, 19: the model's own). -/
def Obligations.StepRunsTheDecodedCommand : Prop :=
  ∀ (s : State) (c : CmdWord) (rest : List Event), s.pending = .command c :: rest →
    (∀ i, decode c = .command i → step s = exec i (s.take rest)) ∧
    (∀ why, decode c = .illegal why →
      ∃ t, step s = .next t ∧ ErrorCompletion .illegalCommand (s.take rest) t) ∧
    s.take rest = { s with pending := rest, draws := s.draws + 1 }

/-- R76, R175: every step answers a next state, whatever the input, from every state; an idle block holds its
state (log entry 7: the model's choice of what an idle step is). -/
def Obligations.EveryStepAnswersNext : Prop :=
  ∀ s : State, StepsSafely s ∧ (s.pending = [] → step s = .next s)

/-- R60, R197: as many steps as inputs wait serve them all, with one response for each command word that is
not abandoned (log entry 6: the queue of waiting inputs is the model's; log entry 13: that inputs waiting behind a
hardware reset are still served is the model's choice). -/
def Obligations.EveryQueueOfInputsIsServed : Prop :=
  ∀ s : State, ∃ t : State, Host.Core.run Sys2Proof.core s.pending.length s = .next t ∧ t.pending = [] ∧
    t.responses.length = s.responses.length +
      (s.pending.filter fun e => match e with | .command _ => true | _ => false).length

/-- R77: every command word, legal or not, produces exactly one response word: its code one of the codes of
R160, its data the register's value for a successful RDREG and 0 otherwise. -/
def Obligations.EveryWordGetsOneResponse : Prop :=
  ∀ (c : CmdWord) (s : State), ∃ t r, runWord c s = .next t ∧ t.responses = s.responses ++ [r] ∧
    r.extractLsb' 16 8 = 0 ∧ codeField r ∈ ([0, 1, 3, 4, 5] : List (BitVec 8)) ∧
    (codeField r ≠ 0 → r.extractLsb' 0 16 = 0) ∧
    (codeField r = 0 → r.extractLsb' 0 16 =
      (match decode c with
        | .command (.rdreg reg) => (match regOfNumber reg with | some q => s.reg q | none => 0)
        | _ => 0))

/-- R166: a command whose response carries an error code has changed nothing but the flag of that code, and the
next command runs as if it had never been issued, except for the STATUS bit. -/
def Obligations.FailedCommandChangesOnlyItsStatusFlag : Prop :=
  ∀ (c : CmdWord) (s t : State) (r : RespWord), runWord c s = .next t →
    t.responses = s.responses ++ [r] → codeField r ≠ 0 →
    ∃ e, e ≠ .decodeFailure ∧ errorCode e = codeField r ∧ ErrorCompletion e s t ∧
      ∀ c', ∃ u v, runWord c' t = .next u ∧ runWord c' s = .next v ∧ SameRegsBut [.status] v u ∧
        SameStores v u ∧ u.out = v.out ∧ u.output = v.output ∧
        (decode c' ≠ .command (.rdreg 7) → u.responses.getLast? = v.responses.getLast?)

/-- R163: each of the seven cases of R76 is an illegal command with no effect but its error completion, and no
other word reports IllegalCommand. -/
def Obligations.IllegalWordsAreExactlyTheSevenCases : Prop :=
  ∀ (c : CmdWord) (s : State),
    (IsIllegalWord c → ∃ t, runWord c s = .next t ∧ ErrorCompletion .illegalCommand s t) ∧
    (¬ IsIllegalWord c → ∃ i t r, decode c = .command i ∧ i.WellFormed ∧ exec i s = .next t ∧
      t.responses = s.responses ++ [r] ∧ codeField r ≠ 3)

/-- R28: no command's behaviour depends on STATUS; only RDREG STATUS shows it. -/
def Obligations.NoCommandDependsOnStatus : Prop :=
  ∀ (i : Instr) (s : State) (v : RegWord), ∃ t u, exec i s = .next t ∧ exec i (s.setReg .status v) = .next u ∧
    SameRegsBut [.status] t u ∧ SameStores t u ∧ u.out = t.out ∧ u.output = t.output ∧
    (i ≠ .rdreg 7 → u.responses = t.responses)

/-- R28: a flag, once set, stays set until CLRERR, SRESET or a hardware reset clears the whole register. -/
def Obligations.StatusFlagsStayUntilCleared : Prop :=
  ∀ (s t : State) (e : Event) (rest : List Event), s.pending = e :: rest → step s = .next t →
    if e = .command (encode .clrerr) ∨ e = .command (encode .sreset) ∨ e = .hardwareReset ∨
        (∃ c, e = .resetDuring c)
    then t.reg .status = 0
    else ∀ k < 16, (s.reg .status).getLsbD k = true → (t.reg .status).getLsbD k = true

/-- R161, R169: the commands that cannot fail complete with code 0, TOBIN under the default capacity. -/
def Obligations.CommandsThatCannotFail : Prop :=
  ∀ s : State,
    (∀ i ∈ [Instr.nop, .clrerr, .sreset, .pack, .encode], ∃ t, exec i s = .next t ∧
      t.responses = s.responses ++ [0]) ∧
    (∀ reg : BitVec 8, reg.toNat ≤ 14 → ∃ t r, exec (.rdreg reg) s = .next t ∧
      t.responses = s.responses ++ [r] ∧ codeField r = 0) ∧
    (s.params = Params.default → ∃ t, exec .tobin s = .next t ∧ t.responses = s.responses ++ [0])

/-- R7, R165: with the default capacities no command reports CapacityExceeded. -/
def Obligations.DefaultCapacitiesAreNeverExceeded : Prop :=
  ∀ (i : Instr) (s : State), s.params = Params.default →
    ∃ t r, exec i s = .next t ∧ t.responses = s.responses ++ [r] ∧ codeField r ≠ 5

/-! ### Configuration and control commands -/

/-- R90: NOP reads and writes no state; a word with its opcode and an operand bit set is illegal. -/
def Obligations.NopChangesNothing : Prop :=
  decode 0x00000000 = .command .nop ∧
  (∀ s : State, ∃ t, exec .nop s = .next t ∧ Answered 0 [] s t ∧ t.regs = s.regs ∧ SameStores s t) ∧
  ∀ (c : CmdWord) (s : State), c.extractLsb' 24 8 = 0x00 → c.extractLsb' 0 24 ≠ 0 →
    ∃ t, runWord c s = .next t ∧ ErrorCompletion .illegalCommand s t

/-- R91: WRREG's three errors, and the write of the one named register. -/
def Obligations.WrregWritesTheNamedRegisterOrFails : Prop :=
  (∀ (reg : BitVec 8) (imm : RegWord), decode ((0x01 : BitVec 8) ++ reg ++ imm) = .command (.wrreg reg imm)) ∧
  ∀ (reg : BitVec 8) (imm : RegWord) (s : State),
    if 6 < reg.toNat ∨ (reg.toNat = 5 ∧ 255 < imm.toNat) ∨ (reg.toNat = 6 ∧ imm.extractLsb' 2 14 ≠ 0) then
      FailsWith .illegalCommand (.wrreg reg imm) s
    else ∃ r t, regNumber r = reg ∧ exec (.wrreg reg imm) s = .next t ∧ t.reg r = imm ∧
      SameRegsBut [r] s t ∧ SameStores s t ∧ Answered 0 [] s t

/-- R92: RDREG answers the value of the named register, without a side effect. -/
def Obligations.RdregAnswersTheRegister : Prop :=
  (∀ reg : BitVec 8, decode ((0x02 : BitVec 8) ++ reg ++ (0 : BitVec 16)) = .command (.rdreg reg)) ∧
  (∀ (c : CmdWord) (s : State), c.extractLsb' 24 8 = 0x02 → c.extractLsb' 0 16 ≠ 0 →
    ∃ t, runWord c s = .next t ∧ ErrorCompletion .illegalCommand s t) ∧
  (∀ (reg : BitVec 8) (s : State),
    if 14 < reg.toNat then FailsWith .illegalCommand (.rdreg reg) s
    else ∃ r t, regNumber r = reg ∧ exec (.rdreg reg) s = .next t ∧ Answered (s.reg r) [] s t ∧
      t.regs = s.regs ∧ SameStores s t) ∧
  ∀ s : State, (BlockInv s → s.num .rowbytes = (s.num .bw + 7) / 8) ∧
    s.num .thresh < 2 ^ 8 ∧ s.num .ctrl < 2 ^ 2 ∧ s.num .status < 2 ^ 6 ∧ s.num .rowbytes < 2 ^ 14 ∧
    s.num .bpol < 2

/-- R93: CLRERR clears STATUS and nothing else. -/
def Obligations.ClrerrClearsOnlyStatus : Prop :=
  decode 0x03000000 = .command .clrerr ∧
  (∀ s : State, ∃ t, exec .clrerr s = .next t ∧ t.reg .status = 0 ∧ SameRegsBut [.status] s t ∧
    SameStores s t ∧ Answered 0 [] s t) ∧
  ∀ (c : CmdWord) (s : State), c.extractLsb' 24 8 = 0x03 → c.extractLsb' 0 24 ≠ 0 →
    ∃ t, runWord c s = .next t ∧ ErrorCompletion .illegalCommand s t

/-- R94: SRESET puts every register and both stores at their reset value, as hardware reset does. -/
def Obligations.SresetEqualsHardwareReset : Prop :=
  decode 0x04000000 = .command .sreset ∧
  (∀ s : State, ∃ t h, exec .sreset s = .next t ∧ serve .hardwareReset s = .next h ∧
    (∀ r, t.reg r = State.reset.reg r) ∧ t.bits = [] ∧ t.dst = [] ∧ t.regs = h.regs ∧ SameStores h t ∧
    Answered 0 [] s t) ∧
  ∀ (c : CmdWord) (s : State), c.extractLsb' 24 8 = 0x04 → c.extractLsb' 0 24 ≠ 0 →
    ∃ t, runWord c s = .next t ∧ ErrorCompletion .illegalCommand s t

/-- R42, R185, R187: the value of every piece of the block's state after either reset, and OUT untouched. -/
def Obligations.EveryResetGivesTheListedValues : Prop :=
  ∀ s t : State, (t = State.reset ∨ exec .sreset s = .next t ∨ serve .hardwareReset s = .next t) →
    t.num .maxw = 500 ∧ t.num .maxh = 300 ∧ t.num .maxf = 5 ∧ t.num .thresh = 128 ∧
    (∀ r, r ∉ [Reg.maxw, .maxh, .maxf, .thresh] → t.num r = 0) ∧ t.bits = [] ∧ t.dst = [] ∧
    t.output = [] ∧ (t ≠ State.reset → t.out = s.out)

/-- R186: hardware reset while a command runs leaves the reset state and no response; some prefix of the
command's output stays emitted. That the inputs which wait stay where they are, a part of `SameSurroundings`, is the
model's choice (log entry 13). -/
def Obligations.ResetDuringACommandAbandonsIt : Prop :=
  ∀ (s : State) (c : CmdWord), ∃ t u n, serve (.resetDuring c) s = .next t ∧ runWord c s = .next u ∧
    t.regs = State.reset.regs ∧ t.bits = [] ∧ t.dst = [] ∧ t.responses = s.responses ∧
    t.out = s.out ++ u.output.take n ∧ SameSurroundings s t

/-- R188: what each command does straight after reset. -/
def Obligations.EveryCommandStraightAfterReset : Prop :=
  (∀ i ∈ [Instr.nop, .clrerr, .sreset, .tobin, .pack], ∃ t, exec i State.reset = .next t ∧
    t.regs = RegFile.reset ∧ t.bits = [] ∧ t.dst = [] ∧ t.responses = [0] ∧ t.out = []) ∧
  (∀ buffer, ∃ t, exec .tobin State.reset = .next t ∧
    exec .tobin { State.reset with src := buffer } = .next { t with src := buffer }) ∧
  (∀ (r : Reg), ∃ t, exec (.rdreg (regNumber r)) State.reset = .next t ∧ t.regs = RegFile.reset ∧
    t.responses = [if r = .maxw then 500 else if r = .maxh then 300 else if r = .maxf then 5
      else if r = .thresh then 128 else 0]) ∧
  FailsWith .invalidDimension .scalep State.reset ∧ FailsWith .invalidDimension .scaleb State.reset ∧
  (∃ t, exec .encode State.reset = .next t ∧ t.regs = RegFile.reset ∧ t.responses = [0] ∧
    t.out = [0x7B, 0x0A, 0x7D, 0x3B, 0x0A])

/-- R22: bits of a register outside its used bits read as 0, in every state. -/
def Obligations.WritingARegisterReadsBackItsUsedBits : Prop :=
  ∀ (s : State) (v : RegWord),
    (∀ r ∈ [Reg.srcw, .srch, .maxw, .maxh, .maxf, .bw, .bh, .outw, .outh, .factor],
      (s.setReg r v).reg r = v) ∧
    (s.setReg .thresh v).num .thresh = v.toNat % 256 ∧ (s.setReg .ctrl v).num .ctrl = v.toNat % 4 ∧
    (s.setReg .rowbytes v).num .rowbytes = v.toNat % 16384 ∧ (s.setReg .bpol v).num .bpol = v.toNat % 2 ∧
    (∀ k < 16, ((s.setReg .status v).reg .status).getLsbD k =
      (v.getLsbD k && decide (k = 1 ∨ k = 3 ∨ k = 4 ∨ k = 5))) ∧
    ∀ r r' : Reg, r' ≠ r → (s.setReg r v).reg r' = s.reg r'

/-! ### Scaler -/

/-- What a scale command does on an image of width `w`, height `h` and pixels `pix`: the errors of R102, R103
and R105 in the order of R167, else the buffer of R106 with its geometry. -/
def ScalesImage (i : Instr) (w h : Nat) (pix : Nat → Nat → Nat → Pixel) (s : State) : Prop :=
  let f := min (s.num .maxf) (min (s.num .maxw / w) (s.num .maxh / h))
  if w = 0 ∨ h = 0 ∨ s.num .maxw = 0 ∨ s.num .maxh = 0 ∨ s.num .maxf = 0 then
    FailsWith .invalidDimension i s
  else if f = 0 then FailsWith .factorUnderflow i s
  else if s.params.dstCap < (f * w) * (f * h) then FailsWith .capacityExceeded i s
  else ∃ t, exec i s = .next t ∧ Answered 0 [] s t ∧ t.num .outw = f * w ∧ t.num .outh = f * h ∧
    t.num .factor = f ∧ SameRegsBut [.outw, .outh, .factor] s t ∧ t.bits = s.bits ∧
    t.dst.length = (f * w) * (f * h) ∧
    ∀ ox oy, ox < f * w → oy < f * h →
      t.dst[oy * (f * w) + ox]? = some (pix (oy * (f * w) + ox) (ox / f) (oy / f))

/-- R109: SCALEP, with every error it has and the scaled copy of the source image. -/
def Obligations.ScalepScalesTheSourceImage : Prop :=
  decode 0x10000000 = .command .scalep ∧
  ∀ s : State, ScalesImage .scalep (s.num .srcw) (s.num .srch) (fun k x y => s.srcRead k x y) s

/-- R110, R108: SCALEB, with every error it has and the raster in black and white: a bit is white when it
equals the latched polarity. -/
def Obligations.ScalebScalesTheRaster : Prop :=
  decode 0x11000000 = .command .scaleb ∧
  ∀ s : State, ScalesImage .scaleb (s.num .bw) (s.num .bh)
    (fun _ x y => if s.bit x y = (s.reg .bpol).getLsbD 0 then 0xFFFFFF else 0x000000) s

/-- R103, R164: with five non-zero inputs the integer factor is 0 exactly when the image is wider or taller than
the envelope, and both scale commands then fail with FactorUnderflow. -/
def Obligations.FactorUnderflowsExactlyWhenTheImageIsTooLarge : Prop :=
  ∀ (s : State) (i : Instr) (w h : Nat),
    ((i = .scalep ∧ w = s.num .srcw ∧ h = s.num .srch) ∨ (i = .scaleb ∧ w = s.num .bw ∧ h = s.num .bh)) →
    0 < w → 0 < h → 0 < s.num .maxw → 0 < s.num .maxh → 0 < s.num .maxf →
    (min (s.num .maxf) (min (s.num .maxw / w) (s.num .maxh / h)) = 0 ↔ s.num .maxw < w ∨ s.num .maxh < h) ∧
    (FailsWith .factorUnderflow i s ↔ s.num .maxw < w ∨ s.num .maxh < h)

/-- R104: the integer factor is the floor of the source's real-valued factor, and for an integer factor the
source's dimension and sample formulas need no rounding. -/
def Obligations.IntegerFactorIsTheFloorOfTheRealFactor : Prop :=
  (∀ (s : State) (w h : Nat), 0 < w → 0 < h → 0 < s.num .maxw → 0 < s.num .maxh → 0 < s.num .maxf →
    (scaleFactor s w h : ℤ) =
      ⌊min (s.num .maxf : ℚ) (min ((s.num .maxw : ℚ) / w) ((s.num .maxh : ℚ) / h))⌋) ∧
  ∀ (f w ox : Nat) (round : ℚ → ℤ), (∀ n : ℤ, round n = n) → 0 < f →
    round ((f : ℚ) * w) = ((f * w : Nat) : ℤ) ∧ ⌊(ox : ℚ) / f⌋ = ((ox / f : Nat) : ℤ)

/-- R107: after a successful scale command each pixel of the image is one `F × F` block of equal pixels, and the
result is inside the envelope and the magnification limit. -/
def Obligations.ScaledPixelsAreEqualBlocksInsideTheEnvelope : Prop :=
  ∀ (s t : State) (i : Instr) (w h : Nat) (pix : Nat → Nat → Pixel),
    ((i = .scalep ∧ w = s.num .srcw ∧ h = s.num .srch ∧ SourceCovers s ∧
        ∀ x y, x < w → y < h → s.src.pixels[y * s.src.width + x]? = some (pix x y)) ∨
      (i = .scaleb ∧ w = s.num .bw ∧ h = s.num .bh ∧
        ∀ x y, pix x y = if s.bit x y = s.rasterPol then white else black)) →
    exec i s = .next t → t.responses = s.responses ++ [0] →
    1 ≤ t.num .factor ∧ t.num .outw = t.num .factor * w ∧ t.num .outh = t.num .factor * h ∧
    t.num .outw ≤ s.num .maxw ∧ t.num .outh ≤ s.num .maxh ∧ t.num .outw ≤ s.num .maxf * w ∧
    t.num .outh ≤ s.num .maxf * h ∧ w ≤ t.num .outw ∧ h ≤ t.num .outh ∧
    ∀ x y ox oy, x < w → y < h → t.num .factor * x ≤ ox → ox < t.num .factor * x + t.num .factor →
      t.num .factor * y ≤ oy → oy < t.num .factor * y + t.num .factor →
      t.dstRead false ox oy = pix x y

/-! ### Binarizer -/

/-- R125: TOBIN, with its one error and the raster of the source image under the settings in force. -/
def Obligations.TobinBinarizesTheSourceImage : Prop :=
  decode 0x20000000 = .command .tobin ∧
  (∀ s : State,
    if s.params.bitsCap < s.num .srcw * s.num .srch then FailsWith .capacityExceeded .tobin s
    else ∃ t, exec .tobin s = .next t ∧ Answered 0 [] s t ∧ t.num .bw = s.num .srcw ∧
      t.num .bh = s.num .srch ∧ t.num .rowbytes = (s.num .srcw + 7) / 8 ∧
      t.num .bpol = s.num .ctrl % 2 ∧ SameRegsBut [.bw, .bh, .rowbytes, .bpol] s t ∧ t.dst = s.dst ∧
      t.bits.length = s.num .srcw * s.num .srch ∧
      ∀ x y, x < s.num .srcw → y < s.num .srch →
        let p := s.srcRead (y * s.num .srcw + x) x y
        let lum := if s.num .ctrl / 2 = 0 then
            (299 * (p.extractLsb' 16 8).toNat + 587 * (p.extractLsb' 8 8).toNat
              + 114 * (p.extractLsb' 0 8).toNat + 500) / 1000
          else (p.extractLsb' 0 8).toNat
        t.bits[y * s.num .srcw + x]? = some (if s.num .ctrl % 2 = 0 then decide (lum < s.num .thresh)
          else decide (s.num .thresh ≤ lum))) ∧
  ∀ (s t u : State) (reg : BitVec 8) (imm : RegWord), exec .tobin s = .next t →
    exec (.wrreg reg imm) t = .next u → u.bits = t.bits ∧ ∀ r ∈ [Reg.bw, .bh, .rowbytes, .bpol], u.reg r = t.reg r

/-- R126: an empty source image is legal input: TOBIN does not read the source port, and ENCODE and PACK then emit
the empty raster's output. -/
def Obligations.EmptyImageGivesTheEmptyRaster : Prop :=
  ∀ s : State, (s.num .srcw = 0 ∨ s.num .srch = 0) →
    ∃ t u v, exec .tobin s = .next t ∧ t.reg .bw = s.reg .srcw ∧ t.reg .bh = s.reg .srch ∧
      t.num .rowbytes = (s.num .srcw + 7) / 8 ∧ t.num .bpol = s.num .ctrl % 2 ∧ t.bits = [] ∧
      Answered 0 [] s t ∧
      (∀ buffer, exec .tobin { s with src := buffer } = .next { t with src := buffer }) ∧
      exec .encode t = .next u ∧ u.output = [0x7B, 0x0A, 0x7D, 0x3B, 0x0A] ∧
      exec .pack t = .next v ∧ v.output = []

/-- R53, R121, R122: the luma of a pixel word of either format, by its layout. -/
def Obligations.LumaFollowsThePixelLayout : Prop :=
  ∀ r g b v : BitVec 8,
    luma false (r ++ g ++ b) = (299 * r.toNat + 587 * g.toNat + 114 * b.toNat + 500) / 1000 ∧
    299 * r.toNat + 587 * g.toNat + 114 * b.toNat ≤ 255000 ∧
    luma false (r ++ g ++ b) ≤ 255 ∧ luma false (v ++ v ++ v) = v.toNat ∧
    luma true (r ++ g ++ v) = v.toNat ∧ luma false white = 255 ∧ luma false black = 0

/-- R123, R124: the comparison is greater than or equal, the polarity is applied after it, and the extremes of
THRESH are as R123 says. -/
def Obligations.ThresholdAndPolarityOfAPixel : Prop :=
  (∀ (fmt pol : Bool) (thresh : Nat) (p : Pixel), pixelBit fmt pol thresh p =
    if pol = false then decide (luma fmt p < thresh) else decide (thresh ≤ luma fmt p)) ∧
  ∀ (fmt pol : Bool) (p : Pixel), pixelBit fmt pol 0 p = pol ∧
    (pixelBit fmt pol 255 p = pol ↔ luma fmt p = 255) ∧
    ∀ thresh ≤ 255, ∃ q, pixelBit fmt pol thresh q = pol

/-- R127: binarizing pixels that are already black or white gives back their bits for any THRESH from 1 to 255,
in either format and either polarity. -/
def Obligations.RethresholdIsIdempotent : Prop :=
  ∀ thresh, 1 ≤ thresh → thresh ≤ 255 →
    (∀ (p : Pixel) (pol : Bool), lumaGray p = 0 → pixelBit true pol thresh p = !pol) ∧
    (∀ (p : Pixel) (pol : Bool), lumaGray p = 255 → pixelBit true pol thresh p = pol) ∧
    (∀ pol : Bool, pixelBit false pol thresh black = !pol ∧ pixelBit false pol thresh white = pol) ∧
    ∀ fmt pol b : Bool, pixelBit fmt pol thresh (expandBit pol b) = b

/-- R108, R127: the binarized preview, offered back as a source image and binarized with the raster's polarity and
any THRESH from 1 to 255, gives the raster scaled by the factor, and the raster itself for factor 1. -/
def Obligations.BinarizedPreviewGivesBackTheRaster : Prop :=
  ∀ s t u : State, Memory.wf s → exec .scaleb s = .next t → t.responses = s.responses ++ [0] →
    u = { (t.setReg .srcw (t.reg .outw)).setReg .srch (t.reg .outh) with
          src := { width := t.num .outw, height := t.num .outh, pixels := t.dst, steady := true } } →
    s.ctrlPol = s.rasterPol → 1 ≤ s.num .thresh → t.num .outw * t.num .outh ≤ s.params.bitsCap →
    ∃ v, exec .tobin u = .next v ∧ v.num .bw = t.num .outw ∧ v.num .bh = t.num .outh ∧
      (∀ ox oy, ox < t.num .outw → oy < t.num .outh →
        v.bit ox oy = s.bit (ox / t.num .factor) (oy / t.num .factor)) ∧
      (t.num .factor = 1 → v.bits = s.bits)

/-! ### Packer and encoder -/

/-- R136, R137, R139: PACK emits `rb * BH` bytes, rows top to bottom, bytes left to right, the leftmost pixel of a
byte in bit 7, padding bits 0; it changes no state. -/
def Obligations.PackEmitsTheRowsMsbFirst : Prop :=
  decode 0x30000000 = .command .pack ∧
  ∀ s : State, ∃ t bytes, exec .pack s = .next t ∧ Answered 0 bytes s t ∧ t.regs = s.regs ∧ SameStores s t ∧
    bytes.length = ((s.num .bw + 7) / 8) * s.num .bh ∧
    (∀ y j, y < s.num .bh → j < (s.num .bw + 7) / 8 →
      ∃ b, bytes[y * ((s.num .bw + 7) / 8) + j]? = some b ∧
        ∀ k < 8, b.getLsbD (7 - k) = if 8 * j + k < s.num .bw then s.bit (8 * j + k) y else false) ∧
    ∃ u, exec .pack t = .next u ∧ u.output = bytes

/-- R140, R141, R142, R146: ENCODE emits, for a raster that is not empty, the array literal of the packed rows;
it changes no state. -/
def Obligations.EncodeEmitsTheArrayLiteral : Prop :=
  decode 0x31000000 = .command .encode ∧
  ∀ s : State, ∃ t bytes, exec .encode s = .next t ∧ Answered 0 bytes s t ∧ t.regs = s.regs ∧ SameStores s t ∧
    bytes = (if s.num .bw = 0 ∨ s.num .bh = 0 then [0x7B, 0x0A, 0x7D, 0x3B, 0x0A]
      else arrayText (packedRows s)) ∧
    ∃ u, exec .encode t = .next u ∧ u.output = bytes

/-- R147: the text of an empty raster, and of the raster after reset, is exactly five bytes. -/
def Obligations.EmptyRasterTextIsFiveBytes : Prop :=
  (∀ s : State, (s.num .bw = 0 ∨ s.num .bh = 0) →
    ∃ t, exec .encode s = .next t ∧ Answered 0 [0x7B, 0x0A, 0x7D, 0x3B, 0x0A] s t) ∧
  ∃ t, exec .encode State.reset = .next t ∧ t.output = [0x7B, 0x0A, 0x7D, 0x3B, 0x0A]

/-- R141, R144: the token of every byte, against the table of character codes. -/
def Obligations.HexTokenOfEveryByte : Prop :=
  ∀ b : Byte, hexToken b = tokenOf b ∧ (∀ c ∈ hexToken b, c ∈ 0x78 :: hexDigits)

/-- R148: the length of ENCODE's output. -/
def Obligations.EncodeOutputLength : Prop :=
  ∀ s : State, ∃ t, exec .encode s = .next t ∧
    if s.num .bw = 0 ∨ s.num .bh = 0 then t.output.length = 5
    else
      let n := ((s.num .bw + 7) / 8) * s.num .bh
      let n1 := ((packedRows s).flatten.filter fun b => decide (b.toNat < 16)).length
      n1 ≤ n ∧ t.output.length = 2 + (3 * n1 + 4 * (n - n1)) + (n - 1) + s.num .bh + 3

/-- R140, R142, R144, R149: in the text of a raster that is not empty there is one token prefix per packed byte,
one comma fewer, one newline per row and two more, and no byte outside the table of R144. -/
def Obligations.EncodeOutputSeparators : Prop :=
  ∀ s : State, s.num .bw ≠ 0 → s.num .bh ≠ 0 → ∃ t, exec .encode s = .next t ∧
    t.output.count 0x78 = ((s.num .bw + 7) / 8) * s.num .bh ∧
    t.output.count 0x2C + 1 = ((s.num .bw + 7) / 8) * s.num .bh ∧
    t.output.count 0x0A = s.num .bh + 2 ∧
    ∀ c ∈ t.output, c ∈ [0x7B, 0x7D, 0x3B, 0x2C, 0x0A, 0x78] ++ hexDigits

/-- R150: reading ENCODE's output back gives exactly the list PACK emits, and neither output carries the width. That
an empty text reads back as no token, on which the empty raster's case rests, is the model's reading (log entry
22). -/
def Obligations.TextReadsBackAsThePackedBytes : Prop :=
  (∀ s : State, ∃ t u, exec .encode s = .next t ∧ exec .pack s = .next u ∧ readBack t.output = u.output) ∧
  ∃ s₁ s₂ : State, s₁.num .bw ≠ s₂.num .bw ∧ BlockInv s₁ ∧ BlockInv s₂ ∧ s₁.bits ≠ [] ∧
    ∀ i ∈ [Instr.pack, .encode], ∃ t₁ t₂, exec i s₁ = .next t₁ ∧ exec i s₂ = .next t₂ ∧ t₁.output = t₂.output

/-- R149 item 3, R128: what PACK and ENCODE emit depends on BW, BH and the bits alone. -/
def Obligations.OutputsDependOnlyOnTheRaster : Prop :=
  ∀ s s' : State, s.reg .bw = s'.reg .bw → s.reg .bh = s'.reg .bh → s.bits = s'.bits →
    ∀ i ∈ [Instr.pack, .encode], ∃ t t', exec i s = .next t ∧ exec i s' = .next t' ∧ t.output = t'.output

/-- R91, R193: a write of a setting after TOBIN does not change what PACK and ENCODE emit. -/
def Obligations.WritingSettingsKeepsTheRaster : Prop :=
  ∀ (s t : State) (reg : BitVec 8) (imm : RegWord), exec (.wrreg reg imm) s = .next t →
    ∀ i ∈ [Instr.pack, .encode], ∃ u v, exec i s = .next u ∧ exec i t = .next v ∧ u.output = v.output

/-! ### The whole machine -/

/-- R62, the columns of what is written: every command leaves every register, both stores, OUT and the
surroundings as they were but for what the table lists for it, and STATUS but for the flag of an error. -/
def Obligations.CommandsWriteOnlyWhatTheTableLists : Prop :=
  ∀ (i : Instr) (s : State), ∃ t r, exec i s = .next t ∧ t.responses = s.responses ++ [r] ∧
    SameRegsBut (.status :: writesOf i) s t ∧
    (codeField r = 0 → .status ∉ writesOf i → t.reg .status = s.reg .status) ∧
    (i ∉ [Instr.sreset, .tobin] → t.bits = s.bits) ∧
    (i ∉ [Instr.sreset, .scalep, .scaleb] → t.dst = s.dst) ∧
    (i ∉ [Instr.pack, .encode] → t.output = []) ∧ t.out = s.out ++ t.output ∧ SameSurroundings s t

/-- R10, R62, the columns of what is read: two states that agree on what the table lists for a command (and, where
it reads the source port, on the port's answers) give the same response and output and, on success, the same
written registers and stores. -/
def Obligations.CommandsReadOnlyWhatTheTableLists : Prop :=
  ∀ (i : Instr) (s s' : State), (∀ r ∈ readsOf i, s.reg r = s'.reg r) → s.params = s'.params →
    (i ∈ [Instr.scalep, .tobin] → ∀ k x y, x < s.num .srcw → y < s.num .srch →
      s.srcRead k x y = s'.srcRead k x y) →
    (i ∈ [Instr.scaleb, .pack, .encode] → s.bits = s'.bits) →
    ∃ t t' r, exec i s = .next t ∧ exec i s' = .next t' ∧ t.responses = s.responses ++ [r] ∧
      t'.responses = s'.responses ++ [r] ∧ t.output = t'.output ∧
      (codeField r = 0 → (∀ q ∈ writesOf i, t.reg q = t'.reg q) ∧
        (i ∈ [Instr.sreset, .tobin] → t.bits = t'.bits) ∧
        (i ∈ [Instr.sreset, .scalep, .scaleb] → t.dst = t'.dst))

/-- R41: the relations that hold between commands are kept by every step, with the stores' canonical form. -/
def Obligations.InvariantIsKeptByEveryStep : Prop := ∀ s t : State, BlockInv s → step s = .next t → BlockInv t

/-- R41, R42: the relations hold after reset. -/
def Obligations.InvariantHoldsAtReset : Prop := BlockInv State.reset

/-- R54, R194: a read of the DST port changes nothing, and between commands, inside the scaled buffer, it answers
the element the last successful scale command wrote (log entry 14: the record of answers is the model's). -/
def Obligations.DisplayReadAnswersTheScaledBuffer : Prop :=
  ∀ (s : State) (busy : Bool) (ox oy : RegWord), BlockInv s →
    ∃ t p, serve (.displayRead busy ox oy) s = .next t ∧ t = { s with shown := s.shown ++ [p] } ∧
      (busy = false → ox.toNat < s.num .outw → oy.toNat < s.num .outh →
        s.dst[oy.toNat * s.num .outw + ox.toNat]? = some p)

/-- R37, R38, R192: a new source buffer and bytes taken by the sink change nothing of the block but the front of
OUT (log entries 2, 11: how the two reach the model is its own). -/
def Obligations.SourceAndSinkTouchNothingElse : Prop :=
  ∀ (s : State) (b : PixelBuffer) (n : Nat),
    serve (.offerSource b) s = .next { s with src := b } ∧
    ∃ t, serve (.sinkTake n) s = .next t ∧ s.out = s.out.take n ++ t.out ∧ t = { s with out := t.out }

/-- R128: for a fixed source buffer that the collaborator keeps, and fixed SRCW, SRCH, THRESH and CTRL, two TOBINs
produce the same raster, and followed by ENCODE the same bytes. -/
def Obligations.ConversionOfASteadyImageIsDeterministic : Prop :=
  ∀ s s' : State, SourceCovers s → s.src = s'.src → s.params = s'.params →
    (∀ r ∈ [Reg.srcw, .srch, .thresh, .ctrl], s.reg r = s'.reg r) →
    s.num .srcw * s.num .srch ≤ s.params.bitsCap →
    ∃ t t' u u', exec .tobin s = .next t ∧ exec .tobin s' = .next t' ∧ t.bits = t'.bits ∧
      t.reg .bw = t'.reg .bw ∧ t.reg .bh = t'.reg .bh ∧
      exec .encode t = .next u ∧ exec .encode t' = .next u' ∧ u.output = u'.output

/-- R174: several blocks share nothing: a step of one is its own step and leaves every other as it was. -/
def Obligations.BlocksSideBySideAreIndependent : Prop :=
  ∀ (blocks : List State) (k : Nat), ∃ after, stepBlock k blocks = .next after ∧
    after.length = blocks.length ∧ (∀ j, j ≠ k → after[j]? = blocks[j]?) ∧
    ∀ s, blocks[k]? = some s → ∃ t, step s = .next t ∧ after[k]? = some t
end

