-- ==== Sys2Proof/Laws/State.lean ====
section
/-! SUPPORT. One lemma per field per update of the state, and what a register reads after each, so that no
proof unfolds a record update. -/

namespace Sys2Proof.Machine

@[simp] theorem State.setReg_regs (s : State) (r : Reg) (v : RegWord) :
    (s.setReg r v).regs = s.regs.write r v := rfl
@[simp] theorem State.setReg_bits (s : State) (r : Reg) (v : RegWord) :
    (s.setReg r v).bits = s.bits := rfl
@[simp] theorem State.setReg_dst (s : State) (r : Reg) (v : RegWord) :
    (s.setReg r v).dst = s.dst := rfl
@[simp] theorem State.setReg_out (s : State) (r : Reg) (v : RegWord) :
    (s.setReg r v).out = s.out := rfl
@[simp] theorem State.setReg_output (s : State) (r : Reg) (v : RegWord) :
    (s.setReg r v).output = s.output := rfl
@[simp] theorem State.setReg_responses (s : State) (r : Reg) (v : RegWord) :
    (s.setReg r v).responses = s.responses := rfl
@[simp] theorem State.setReg_pending (s : State) (r : Reg) (v : RegWord) :
    (s.setReg r v).pending = s.pending := rfl
@[simp] theorem State.setReg_src (s : State) (r : Reg) (v : RegWord) :
    (s.setReg r v).src = s.src := rfl
@[simp] theorem State.setReg_shown (s : State) (r : Reg) (v : RegWord) :
    (s.setReg r v).shown = s.shown := rfl
@[simp] theorem State.setReg_draws (s : State) (r : Reg) (v : RegWord) :
    (s.setReg r v).draws = s.draws := rfl
@[simp] theorem State.setReg_params (s : State) (r : Reg) (v : RegWord) :
    (s.setReg r v).params = s.params := rfl

@[simp] theorem State.setBits_regs (s : State) (l : List Bool) :
    (s.setBits l).regs = s.regs := rfl
@[simp] theorem State.setBits_bits (s : State) (l : List Bool) :
    (s.setBits l).bits = l := rfl
@[simp] theorem State.setBits_dst (s : State) (l : List Bool) :
    (s.setBits l).dst = s.dst := rfl
@[simp] theorem State.setBits_out (s : State) (l : List Bool) :
    (s.setBits l).out = s.out := rfl
@[simp] theorem State.setBits_output (s : State) (l : List Bool) :
    (s.setBits l).output = s.output := rfl
@[simp] theorem State.setBits_responses (s : State) (l : List Bool) :
    (s.setBits l).responses = s.responses := rfl
@[simp] theorem State.setBits_pending (s : State) (l : List Bool) :
    (s.setBits l).pending = s.pending := rfl
@[simp] theorem State.setBits_src (s : State) (l : List Bool) :
    (s.setBits l).src = s.src := rfl
@[simp] theorem State.setBits_shown (s : State) (l : List Bool) :
    (s.setBits l).shown = s.shown := rfl
@[simp] theorem State.setBits_draws (s : State) (l : List Bool) :
    (s.setBits l).draws = s.draws := rfl
@[simp] theorem State.setBits_params (s : State) (l : List Bool) :
    (s.setBits l).params = s.params := rfl

@[simp] theorem State.setDst_regs (s : State) (l : List Pixel) :
    (s.setDst l).regs = s.regs := rfl
@[simp] theorem State.setDst_bits (s : State) (l : List Pixel) :
    (s.setDst l).bits = s.bits := rfl
@[simp] theorem State.setDst_dst (s : State) (l : List Pixel) :
    (s.setDst l).dst = l := rfl
@[simp] theorem State.setDst_out (s : State) (l : List Pixel) :
    (s.setDst l).out = s.out := rfl
@[simp] theorem State.setDst_output (s : State) (l : List Pixel) :
    (s.setDst l).output = s.output := rfl
@[simp] theorem State.setDst_responses (s : State) (l : List Pixel) :
    (s.setDst l).responses = s.responses := rfl
@[simp] theorem State.setDst_pending (s : State) (l : List Pixel) :
    (s.setDst l).pending = s.pending := rfl
@[simp] theorem State.setDst_src (s : State) (l : List Pixel) :
    (s.setDst l).src = s.src := rfl
@[simp] theorem State.setDst_shown (s : State) (l : List Pixel) :
    (s.setDst l).shown = s.shown := rfl
@[simp] theorem State.setDst_draws (s : State) (l : List Pixel) :
    (s.setDst l).draws = s.draws := rfl
@[simp] theorem State.setDst_params (s : State) (l : List Pixel) :
    (s.setDst l).params = s.params := rfl

@[simp] theorem State.finish_regs (s : State) (w : RespWord) (l : List Byte) :
    (s.finish w l).regs = s.regs := rfl
@[simp] theorem State.finish_bits (s : State) (w : RespWord) (l : List Byte) :
    (s.finish w l).bits = s.bits := rfl
@[simp] theorem State.finish_dst (s : State) (w : RespWord) (l : List Byte) :
    (s.finish w l).dst = s.dst := rfl
@[simp] theorem State.finish_out (s : State) (w : RespWord) (l : List Byte) :
    (s.finish w l).out = s.out ++ l := rfl
@[simp] theorem State.finish_output (s : State) (w : RespWord) (l : List Byte) :
    (s.finish w l).output = l := rfl
@[simp] theorem State.finish_responses (s : State) (w : RespWord) (l : List Byte) :
    (s.finish w l).responses = s.responses ++ [w] := rfl
@[simp] theorem State.finish_pending (s : State) (w : RespWord) (l : List Byte) :
    (s.finish w l).pending = s.pending := rfl
@[simp] theorem State.finish_src (s : State) (w : RespWord) (l : List Byte) :
    (s.finish w l).src = s.src := rfl
@[simp] theorem State.finish_shown (s : State) (w : RespWord) (l : List Byte) :
    (s.finish w l).shown = s.shown := rfl
@[simp] theorem State.finish_draws (s : State) (w : RespWord) (l : List Byte) :
    (s.finish w l).draws = s.draws := rfl
@[simp] theorem State.finish_params (s : State) (w : RespWord) (l : List Byte) :
    (s.finish w l).params = s.params := rfl

@[simp] theorem State.take_regs (s : State) (l : List Event) :
    (s.take l).regs = s.regs := rfl
@[simp] theorem State.take_bits (s : State) (l : List Event) :
    (s.take l).bits = s.bits := rfl
@[simp] theorem State.take_dst (s : State) (l : List Event) :
    (s.take l).dst = s.dst := rfl
@[simp] theorem State.take_out (s : State) (l : List Event) :
    (s.take l).out = s.out := rfl
@[simp] theorem State.take_output (s : State) (l : List Event) :
    (s.take l).output = s.output := rfl
@[simp] theorem State.take_responses (s : State) (l : List Event) :
    (s.take l).responses = s.responses := rfl
@[simp] theorem State.take_pending (s : State) (l : List Event) :
    (s.take l).pending = l := rfl
@[simp] theorem State.take_src (s : State) (l : List Event) :
    (s.take l).src = s.src := rfl
@[simp] theorem State.take_shown (s : State) (l : List Event) :
    (s.take l).shown = s.shown := rfl
@[simp] theorem State.take_draws (s : State) (l : List Event) :
    (s.take l).draws = s.draws + 1 := rfl
@[simp] theorem State.take_params (s : State) (l : List Event) :
    (s.take l).params = s.params := rfl

@[simp] theorem State.resetBlock_regs (s : State) :
    (s.resetBlock).regs = RegFile.reset := rfl
@[simp] theorem State.resetBlock_bits (s : State) :
    (s.resetBlock).bits = [] := rfl
@[simp] theorem State.resetBlock_dst (s : State) :
    (s.resetBlock).dst = [] := rfl
@[simp] theorem State.resetBlock_out (s : State) :
    (s.resetBlock).out = s.out := rfl
@[simp] theorem State.resetBlock_output (s : State) :
    (s.resetBlock).output = [] := rfl
@[simp] theorem State.resetBlock_responses (s : State) :
    (s.resetBlock).responses = s.responses := rfl
@[simp] theorem State.resetBlock_pending (s : State) :
    (s.resetBlock).pending = s.pending := rfl
@[simp] theorem State.resetBlock_src (s : State) :
    (s.resetBlock).src = s.src := rfl
@[simp] theorem State.resetBlock_shown (s : State) :
    (s.resetBlock).shown = s.shown := rfl
@[simp] theorem State.resetBlock_draws (s : State) :
    (s.resetBlock).draws = s.draws := rfl
@[simp] theorem State.resetBlock_params (s : State) :
    (s.resetBlock).params = s.params := rfl

/-! ### Registers -/

/-- Writing a register and reading it back gives the used bits of what was written. -/
@[simp] theorem RegFile.read_write_same (f : RegFile) (r : Reg) (v : RegWord) :
    (f.write r v).read r = v &&& usedBits r := by cases r <;> rfl

/-- Writing a register leaves every other register as it was. -/
@[simp] theorem RegFile.read_write_other (f : RegFile) {r r' : Reg} (v : RegWord) (h : r' ≠ r) :
    (f.write r v).read r' = f.read r' := by
  cases r <;> cases r' <;> first | rfl | exact absurd rfl h

@[simp] theorem State.reg_setReg_same (s : State) (r : Reg) (v : RegWord) :
    (s.setReg r v).reg r = v &&& usedBits r := RegFile.read_write_same s.regs r v

@[simp] theorem State.reg_setReg_other (s : State) {r r' : Reg} (v : RegWord) (h : r' ≠ r) :
    (s.setReg r v).reg r' = s.reg r' := RegFile.read_write_other s.regs v h

@[simp] theorem State.reg_setBits (s : State) (l : List Bool) (r : Reg) : (s.setBits l).reg r = s.reg r := rfl
@[simp] theorem State.reg_setDst (s : State) (l : List Pixel) (r : Reg) : (s.setDst l).reg r = s.reg r := rfl
@[simp] theorem State.reg_finish (s : State) (w : RespWord) (l : List Byte) (r : Reg) :
    (s.finish w l).reg r = s.reg r := rfl
@[simp] theorem State.reg_take (s : State) (l : List Event) (r : Reg) : (s.take l).reg r = s.reg r := rfl
@[simp] theorem State.reg_resetBlock (s : State) (r : Reg) : s.resetBlock.reg r = State.reset.reg r := rfl

@[simp] theorem usedBits_srcw : usedBits .srcw = 0xFFFF := rfl
@[simp] theorem usedBits_srch : usedBits .srch = 0xFFFF := rfl
@[simp] theorem usedBits_maxw : usedBits .maxw = 0xFFFF := rfl
@[simp] theorem usedBits_maxh : usedBits .maxh = 0xFFFF := rfl
@[simp] theorem usedBits_maxf : usedBits .maxf = 0xFFFF := rfl
@[simp] theorem usedBits_thresh : usedBits .thresh = 0x00FF := rfl
@[simp] theorem usedBits_ctrl : usedBits .ctrl = 0x0003 := rfl
@[simp] theorem usedBits_status : usedBits .status = 0x003A := rfl
@[simp] theorem usedBits_bw : usedBits .bw = 0xFFFF := rfl
@[simp] theorem usedBits_bh : usedBits .bh = 0xFFFF := rfl
@[simp] theorem usedBits_rowbytes : usedBits .rowbytes = 0x3FFF := rfl
@[simp] theorem usedBits_bpol : usedBits .bpol = 0x0001 := rfl
@[simp] theorem usedBits_outw : usedBits .outw = 0xFFFF := rfl
@[simp] theorem usedBits_outh : usedBits .outh = 0xFFFF := rfl
@[simp] theorem usedBits_factor : usedBits .factor = 0xFFFF := rfl

@[simp] theorem State.num_setBits (s : State) (l : List Bool) (r : Reg) : (s.setBits l).num r = s.num r := rfl
@[simp] theorem State.num_setDst (s : State) (l : List Pixel) (r : Reg) : (s.setDst l).num r = s.num r := rfl
@[simp] theorem State.num_finish (s : State) (w : RespWord) (l : List Byte) (r : Reg) : (s.finish w l).num r = s.num r := rfl
@[simp] theorem State.num_take (s : State) (l : List Event) (r : Reg) : (s.take l).num r = s.num r := rfl
@[simp] theorem State.num_resetBlock (s : State) (r : Reg) : s.resetBlock.num r = State.reset.num r := rfl
@[simp] theorem State.num_setReg_other (s : State) {r r' : Reg} (v : RegWord) (h : r' ≠ r) :
    (s.setReg r v).num r' = s.num r' := by simp [State.num, h]

@[simp] theorem State.bit_setDst (s : State) (l : List Pixel) (x y : Nat) : (s.setDst l).bit x y = s.bit x y := rfl
@[simp] theorem State.bit_finish (s : State) (w : RespWord) (l : List Byte) (x y : Nat) : (s.finish w l).bit x y = s.bit x y := rfl
@[simp] theorem State.bit_take (s : State) (l : List Event) (x y : Nat) : (s.take l).bit x y = s.bit x y := rfl
@[simp] theorem State.srcRead_finish (s : State) (w : RespWord) (l : List Byte) (k x y : Nat) :
    (s.finish w l).srcRead k x y = s.srcRead k x y := rfl
@[simp] theorem State.dstRead_finish (s : State) (w : RespWord) (l : List Byte) (busy : Bool) (x y : Nat) :
    (s.finish w l).dstRead busy x y = s.dstRead busy x y := rfl

/-- The mask of a register all of whose bits are used keeps every bit. -/
@[simp] theorem and_all_used (v : RegWord) : v &&& 65535#16 = v := BitVec.and_allOnes

/-- A number below `2^16` survives being held in a register all of whose bits are used. -/
theorem State.num_setReg_full (s : State) {r : Reg} (h : usedBits r = 0xFFFF) {n : Nat} (hn : n < 65536) :
    (s.setReg r (BitVec.ofNat 16 n)).num r = n := by
  rw [State.num, State.reg_setReg_same, h]
  exact (congrArg BitVec.toNat (and_all_used _)).trans (Nat.mod_eq_of_lt hn)

theorem State.num_lt (s : State) (r : Reg) : s.num r < 65536 := (s.reg r).isLt

end Sys2Proof.Machine
end

