-- ==== Sys2Proof/Laws/Ops.lean ====
section
/-! SUPPORT. For each shared operation, what it can do: the two completions, the row-major layout, the reads
of the three stores and ports, and that every command keeps the stores' canonical form. -/

namespace Sys2Proof.Machine

/-! ### Completions -/

/-- A success completion answers exactly this next state. -/
theorem complete_next {data : RegWord} {bytes : List Byte} {s t : State}
    (h : complete data bytes s = .next t) : t = s.finish (responseWord okCode data) bytes := by
  cases h; rfl

/-- An error completion answers exactly this next state. -/
theorem raise_next {e : ErrorKind} {s t : State} (h : raise e s = .next t) :
    t = (s.setReg .status (setErrorFlag (s.reg .status) e)).finish (responseWord (errorCode e) 0) [] := by
  cases h; rfl

/-- An error completion changes no register but STATUS. -/
theorem raise_regs {e : ErrorKind} {s t : State} (h : raise e s = .next t) :
    SameRegsBut [.status] s t := by
  intro r hr
  have hne : r ≠ .status := by simpa using hr
  rw [raise_next h]
  simp [hne]

/-- An error completion touches neither store, emits nothing, and leaves the surroundings. -/
theorem raise_frame {e : ErrorKind} {s t : State} (h : raise e s = .next t) :
    SameStores s t ∧ t.out = s.out ∧ t.output = [] ∧ SameSurroundings s t := by
  rw [raise_next h]
  simp [SameStores, SameSurroundings]

/-- What an error completion writes into STATUS reads back as the old flags and the flag of its code. -/
theorem raise_status {e : ErrorKind} {s t : State} (h : raise e s = .next t) (he : e ≠ .decodeFailure) :
    t.reg .status = setErrorFlag (s.reg .status) e := by
  have hm : ∀ v : RegWord, setErrorFlag (v &&& usedBits .status) e &&& usedBits .status =
      setErrorFlag (v &&& usedBits .status) e := by
    intro v
    ext i hi
    cases e <;> simp [setErrorFlag, errorCode, usedBits] at he ⊢ <;> interval_cases i <;> simp
  rw [raise_next h]
  simp only [State.reg_finish, State.reg_setReg_same]
  exact hm _

/-- An error completion by a kind the block raises is the error completion of R166. -/
theorem raise_completes {e : ErrorKind} (he : e ≠ .decodeFailure) (s : State) :
    ∃ t, raise e s = .next t ∧ ErrorCompletion e s t := by
  refine ⟨_, rfl, ?_, raise_regs rfl, (raise_frame rfl).1, (raise_frame rfl).2.1, rfl, ?_,
    (raise_frame rfl).2.2.2⟩
  · intro k hk
    have h : k = (errorCode e).toNat ↔ (errorCode e).toNat = k := eq_comm
    rw [raise_status rfl he]
    cases e <;> simp [setErrorFlag, errorCode] at he h ⊢ <;> interval_cases k <;> simp
  · cases e <;> rfl

/-- A success completion answers its data and bytes, over any update of registers and stores. -/
theorem complete_answers (data : RegWord) (bytes : List Byte) {s u : State}
    (hr : u.responses = s.responses) (ho : u.out = s.out) (hs : SameSurroundings s u) :
    ∃ t, complete data bytes u = .next t ∧ t = u.finish (responseWord okCode data) bytes ∧
      Answered data bytes s t := by
  refine ⟨_, rfl, rfl, ?_, rfl, ?_, hs⟩
  · have h : responseWord okCode data = data.zeroExtend 32 := by
      apply BitVec.eq_of_toNat_eq
      change ((0 : BitVec 8) ++ (0 : BitVec 8) ++ data).toNat = _
      rw [BitVec.toNat_append, BitVec.toNat_append, BitVec.toNat_setWidth,
        Nat.mod_eq_of_lt (by omega)]
      simp
    simp [hr, h]
  · simp [ho]

/-! ### Row-major buffers -/

@[simp] theorem rowMajor_length {α : Type} (w h : Nat) (f : Nat → Nat → α) :
    (rowMajor w h f).length = w * h := by simp [rowMajor]

/-- The linear index of a position inside a buffer is inside the buffer's list. -/
theorem index_lt {w h x y : Nat} (hx : x < w) (hy : y < h) : y * w + x < w * h := by
  calc y * w + x < y * w + w := by omega
    _ = (y + 1) * w := by ring
    _ ≤ h * w := Nat.mul_le_mul_right w hy
    _ = w * h := Nat.mul_comm h w

/-- Column `x`, row `y` of a row-major buffer stands at linear index `y*w + x` (R51). -/
theorem rowMajor_at {α : Type} {w h x y : Nat} (f : Nat → Nat → α) (hx : x < w) (hy : y < h) :
    (rowMajor w h f)[y * w + x]? = some (f x y) := by
  have hw : 0 < w := by omega
  have h1 : (y * w + x) % w = x := by
    rw [Nat.add_comm, Nat.add_mul_mod_self_right, Nat.mod_eq_of_lt hx]
  have h2 : (y * w + x) / w = y := by
    rw [Nat.add_comm, Nat.add_mul_div_right _ _ hw, Nat.div_eq_of_lt hx, Nat.zero_add]
  simp [rowMajor, index_lt hx hy, h1, h2]

/-- A buffer without columns or without rows has no element. -/
theorem rowMajor_empty {α : Type} {w h : Nat} (f : Nat → Nat → α) (hz : w = 0 ∨ h = 0) :
    rowMajor w h f = [] := by
  rcases hz with rfl | rfl <;> simp [rowMajor]

/-! ### Reads -/

/-- A collaborator that does its duty answers the word of its buffer (R52). -/
theorem srcRead_covered {s : State} (h : SourceCovers s) {x y : Nat} (hx : x < s.num .srcw)
    (hy : y < s.num .srch) :
    ∃ p, s.src.pixels[y * s.src.width + x]? = some p ∧ ∀ k, s.srcRead k x y = p := by
  obtain ⟨hs, hw, hh, hl⟩ := h
  have hx' : x < s.src.width := by omega
  have hy' : y < s.src.height := by omega
  have hi : y * s.src.width + x < s.src.pixels.length := by rw [hl]; exact index_lt hx' hy'
  exact ⟨s.src.pixels[y * s.src.width + x], List.getElem?_eq_getElem hi,
    fun k => by simp [State.srcRead, PixelBuffer.word, hs, hx', hy', hi]⟩

/-- Inside the window of DST, a read between commands gives the element of the list (R54). -/
theorem dstRead_inside {s : State} (hwf : Memory.wf s) {ox oy : Nat} (hx : ox < s.num .outw)
    (hy : oy < s.num .outh) :
    s.dst[oy * s.num .outw + ox]? = some (s.dstRead false ox oy) := by
  have hi : oy * s.num .outw + ox < s.dst.length := by rw [hwf.2]; exact index_lt hx hy
  simp [State.dstRead, hx, hy, hi]

/-- Inside the raster, a read of BITS gives the element of the list (R35). -/
theorem bit_inside {s : State} (hwf : Memory.wf s) {x y : Nat} (hx : x < s.num .bw) (hy : y < s.num .bh) :
    s.bits[y * s.num .bw + x]? = some (s.bit x y) := by
  have hi : y * s.num .bw + x < s.bits.length := by rw [hwf.1]; exact index_lt hx hy
  simp [State.bit, hi]

/-! ### The canonical form of the stores -/

/-- Two states with the same stores and the same geometry registers agree on the canonical form. -/
theorem Memory.wf_congr {s t : State} (hb : t.bits = s.bits) (hd : t.dst = s.dst)
    (hr : ∀ r ∈ [Reg.bw, .bh, .outw, .outh], t.reg r = s.reg r) : Memory.wf t ↔ Memory.wf s := by
  simp [Memory.wf, State.num, hb, hd, hr]

theorem Memory.wf_reset : Memory.wf State.reset := by decide

theorem State.finish_wf {s : State} (w : RespWord) (l : List Byte) (h : Memory.wf s) :
    Memory.wf (s.finish w l) := (Memory.wf_congr rfl rfl fun _ _ => rfl).2 h

theorem State.take_wf {s : State} (l : List Event) (h : Memory.wf s) : Memory.wf (s.take l) :=
  (Memory.wf_congr rfl rfl fun _ _ => rfl).2 h

theorem State.resetBlock_wf (s : State) : Memory.wf s.resetBlock := by
  simp only [Memory.wf, State.num, State.reg_resetBlock, State.resetBlock_bits, State.resetBlock_dst]
  decide

/-- A write of a register that is no geometry register keeps the canonical form. -/
theorem State.setReg_wf {s : State} {r : Reg} (v : RegWord) (hr : r ∉ [Reg.bw, .bh, .outw, .outh])
    (h : Memory.wf s) : Memory.wf (s.setReg r v) := by
  refine (Memory.wf_congr (s := s) (t := s.setReg r v) rfl rfl fun r' hr' => State.reg_setReg_other s v ?_).2 h
  rintro rfl
  exact hr hr'

theorem raise_wf {e : ErrorKind} {s t : State} (ht : raise e s = .next t) (h : Memory.wf s) :
    Memory.wf t := by
  rw [raise_next ht]
  exact State.finish_wf _ _ (State.setReg_wf _ (by decide) h)

theorem complete_wf {data : RegWord} {bytes : List Byte} {s t : State}
    (ht : complete data bytes s = .next t) (h : Memory.wf s) : Memory.wf t := by
  rw [complete_next ht]; exact State.finish_wf _ _ h

end Sys2Proof.Machine
end

