-- ==== Sys2Proof/Laws/Commands.lean ====
section
/-! SUPPORT. Once for each command with more than one way to end: everything it can do. A proof about a command
cites these and does not unfold the command. -/

namespace Sys2Proof.Machine

/-- Register numbers and registers stand for each other (R22, R80). -/
theorem regOfNumber_eq_some {n : BitVec 8} {r : Reg} : regOfNumber n = some r ↔ regNumber r = n := by
  constructor
  · intro h
    unfold regOfNumber at h
    split at h <;> first | (cases h; apply BitVec.eq_of_toNat_eq; simp_all [regNumber]) | cases h
  · rintro rfl; cases r <;> rfl

/-- A number names no register exactly from 15 on (R34). -/
theorem regOfNumber_eq_none {n : BitVec 8} : regOfNumber n = none ↔ 15 ≤ n.toNat := by
  constructor
  · intro h
    by_contra hn
    have hlt : n.toNat < 15 := by omega
    interval_cases hv : n.toNat <;> simp [regOfNumber, hv] at h
  · intro h
    unfold regOfNumber
    split <;> first | rfl | omega

/-- What WRREG can do: one of its three errors, or the write (R91). -/
theorem execWrreg_cases (reg : BitVec 8) (imm : RegWord) (s : State) :
    (execWrreg reg imm s = raise .illegalCommand s ∧ ∀ r, regNumber r = reg → regAccepts r imm = false) ∨
    ∃ r, regNumber r = reg ∧ regAccepts r imm = true ∧
      execWrreg reg imm s = complete 0 [] (s.setReg r imm) := by
  unfold execWrreg
  cases h : regOfNumber reg with
  | none =>
    refine .inl ⟨rfl, fun r hr => ?_⟩
    rw [regOfNumber_eq_some.2 hr] at h; cases h
  | some r =>
    have hr := regOfNumber_eq_some.1 h
    by_cases ha : regAccepts r imm = true
    · exact .inr ⟨r, hr, ha, by simp [ha]⟩
    · refine .inl ⟨by simp [ha], fun r' hr' => ?_⟩
      have : r' = r := by
        have := regOfNumber_eq_some.2 hr'
        rw [h] at this; exact (Option.some.inj this).symm
      simpa [this] using ha

/-- What RDREG can do: its error, or the answer (R92). -/
theorem execRdreg_cases (reg : BitVec 8) (s : State) :
    (execRdreg reg s = raise .illegalCommand s ∧ 15 ≤ reg.toNat) ∨
    ∃ r, regNumber r = reg ∧ execRdreg reg s = complete (s.reg r) [] s := by
  unfold execRdreg
  cases h : regOfNumber reg with
  | none => exact .inl ⟨rfl, regOfNumber_eq_none.1 h⟩
  | some r => exact .inr ⟨r, regOfNumber_eq_some.1 h, rfl⟩

/-- A scale operation has a zero input (R102). -/
abbrev ZeroInput (s : State) (w h : Nat) : Prop :=
  w = 0 ∨ h = 0 ∨ s.num .maxw = 0 ∨ s.num .maxh = 0 ∨ s.num .maxf = 0

/-- What a scale operation can do: one of its three errors, in their order, or the scaled buffer (R102,
R103, R105, R106). -/
theorem scale_cases (w h : Nat) (pix : Nat → Nat → Nat → Pixel) (s : State) :
    (ZeroInput s w h ∧ scale w h pix s = raise .invalidDimension s) ∨
    (¬ ZeroInput s w h ∧ scaleFactor s w h = 0 ∧ scale w h pix s = raise .factorUnderflow s) ∨
    (¬ ZeroInput s w h ∧ scaleFactor s w h ≠ 0 ∧
      s.params.dstCap < (scaleFactor s w h * w) * (scaleFactor s w h * h) ∧
      scale w h pix s = raise .capacityExceeded s) ∨
    (¬ ZeroInput s w h ∧ scaleFactor s w h ≠ 0 ∧
      (scaleFactor s w h * w) * (scaleFactor s w h * h) ≤ s.params.dstCap ∧
      scale w h pix s = complete 0 [] (s.putScaled (scaleFactor s w h) w h pix)) := by
  unfold scale
  by_cases hz : ZeroInput s w h
  · exact .inl ⟨hz, if_pos hz⟩
  by_cases hf : scaleFactor s w h = 0
  · exact .inr (.inl ⟨hz, hf, by rw [if_neg hz, if_pos hf]⟩)
  by_cases hc : s.params.dstCap < (scaleFactor s w h * w) * (scaleFactor s w h * h)
  · exact .inr (.inr (.inl ⟨hz, hf, hc, by rw [if_neg hz, if_neg hf, if_pos hc]⟩))
  · exact .inr (.inr (.inr ⟨hz, hf, by omega, by rw [if_neg hz, if_neg hf, if_neg hc]⟩))

/-- The scaled dimensions stay inside the envelope, so they fit a register (R105). -/
theorem scaleFactor_mul_le (s : State) (w h : Nat) :
    scaleFactor s w h * w ≤ s.num .maxw ∧ scaleFactor s w h * h ≤ s.num .maxh ∧
      scaleFactor s w h ≤ s.num .maxf := by
  have h1 : scaleFactor s w h ≤ s.num .maxw / w :=
    (Nat.min_le_right _ _).trans (Nat.min_le_left _ _)
  have h2 : scaleFactor s w h ≤ s.num .maxh / h :=
    (Nat.min_le_right _ _).trans (Nat.min_le_right _ _)
  exact ⟨(Nat.mul_le_mul_right w h1).trans (Nat.div_mul_le_self _ _),
    (Nat.mul_le_mul_right h h2).trans (Nat.div_mul_le_self _ _), Nat.min_le_left _ _⟩

/-- What the scaled state reads, where the three results fit a register (R105, R106, R109). -/
theorem putScaled_spec (s : State) {f w h : Nat} (pix : Nat → Nat → Nat → Pixel) (hf : f < 65536)
    (hw : f * w < 65536) (hh : f * h < 65536) :
    (s.putScaled f w h pix).num .outw = f * w ∧ (s.putScaled f w h pix).num .outh = f * h ∧
    (s.putScaled f w h pix).num .factor = f ∧ SameRegsBut [.outw, .outh, .factor] s (s.putScaled f w h pix) ∧
    (s.putScaled f w h pix).dst = scaledImage f w h pix ∧ (s.putScaled f w h pix).bits = s.bits := by
  refine ⟨?_, ?_, ?_, ?_, rfl, rfl⟩
  · simp [State.putScaled, State.num, Nat.mod_eq_of_lt hw]
  · simp [State.putScaled, State.num, Nat.mod_eq_of_lt hh]
  · simp [State.putScaled, State.num, Nat.mod_eq_of_lt hf]
  · intro r hr
    simp only [List.mem_cons, List.not_mem_nil, or_false, not_or] at hr
    simp [State.putScaled, hr]

/-- What TOBIN can do: its error, or the raster (R125). -/
theorem execTobin_cases (s : State) :
    (s.params.bitsCap < s.num .srcw * s.num .srch ∧ execTobin s = raise .capacityExceeded s) ∨
    (s.num .srcw * s.num .srch ≤ s.params.bitsCap ∧ execTobin s = complete 0 [] s.putRaster) := by
  unfold execTobin
  by_cases h : s.params.bitsCap < s.num .srcw * s.num .srch
  · exact .inl ⟨h, if_pos h⟩
  · exact .inr ⟨by omega, if_neg h⟩

/-- What the binarized state reads (R125). -/
theorem putRaster_spec (s : State) :
    s.putRaster.reg .bw = s.reg .srcw ∧ s.putRaster.reg .bh = s.reg .srch ∧
    s.putRaster.num .rowbytes = ceil8 (s.num .srcw) ∧ s.putRaster.rasterPol = s.ctrlPol ∧
    SameRegsBut [.bw, .bh, .rowbytes, .bpol] s s.putRaster ∧
    s.putRaster.bits = binarized s ∧ s.putRaster.dst = s.dst := by
  have hc : ceil8 (s.num .srcw) < 16384 := by
    have := s.num_lt .srcw
    unfold ceil8; omega
  refine ⟨by simp [State.putRaster], by simp [State.putRaster], ?_, ?_, ?_, rfl, rfl⟩
  · have h1 : ∀ n : Nat, n < 16384 → ((BitVec.ofNat 16 n) &&& (0x3FFF : RegWord)).toNat = n := by
      intro n hn
      rw [BitVec.toNat_and, BitVec.toNat_ofNat, Nat.mod_eq_of_lt (by omega)]
      exact (Nat.and_two_pow_sub_one_eq_mod n 14).trans (Nat.mod_eq_of_lt hn)
    simpa [State.putRaster, State.num] using h1 _ hc
  · cases h : s.ctrlPol <;> simp [State.putRaster, State.rasterPol, h]
  · intro r hr
    simp only [List.mem_cons, List.not_mem_nil, or_false, not_or] at hr
    simp [State.putRaster, hr]

/-- The packed byte of a position, as an element of the packed list (R137). -/
theorem packed_at (s : State) {y j : Nat} (hj : j < rowByteWidth s) (hy : y < s.num .bh) :
    (packed s)[y * rowByteWidth s + j]? = some (packedByte s y j) :=
  rowMajor_at _ hj hy

theorem packed_length (s : State) : (packed s).length = rowByteWidth s * s.num .bh := rowMajor_length _ _ _

end Sys2Proof.Machine
end

