-- ==== Sys2Proof/Laws/Decode.lean ====
section
/-! SUPPORT. The fields of a command word that was put together, and what the decoder does with a word of
each format. -/

namespace Sys2Proof

/-- The three fields, read from the word at the width the concatenation has. -/
theorem extract_append (op reg : BitVec 8) (imm : BitVec 16) :
    (op ++ reg ++ imm).extractLsb' 24 8 = op ∧ (op ++ reg ++ imm).extractLsb' 16 8 = reg ∧
      (op ++ reg ++ imm).extractLsb' 0 16 = imm := by
  refine ⟨?_, ?_, ?_⟩ <;> ext i hi <;>
    simp only [BitVec.getElem_extractLsb', BitVec.getLsbD_append]
  · rw [if_neg (by omega), if_neg (by omega), show 24 + i - 16 - 8 = i by omega,
      BitVec.getLsbD_eq_getElem hi]
  · rw [if_neg (by omega), show 16 + i - 16 = i by omega, if_pos (by omega),
      BitVec.getLsbD_eq_getElem hi]
  · rw [if_pos (by omega), Nat.zero_add, BitVec.getLsbD_eq_getElem hi]

@[simp] theorem opField_commandWord (op reg : BitVec 8) (imm : RegWord) :
    opField (commandWord op reg imm) = op := (extract_append op reg imm).1

@[simp] theorem regField_commandWord (op reg : BitVec 8) (imm : RegWord) :
    regField (commandWord op reg imm) = reg := (extract_append op reg imm).2.1

@[simp] theorem immField_commandWord (op reg : BitVec 8) (imm : RegWord) :
    immField (commandWord op reg imm) = imm := (extract_append op reg imm).2.2

/-- A word is put together from its three fields. -/
theorem commandWord_fields (c : CmdWord) : commandWord (opField c) (regField c) (immField c) = c := by
  have h : (c.extractLsb' 24 8 ++ c.extractLsb' 16 8 ++ c.extractLsb' 0 16 : BitVec (8 + 8 + 16)) = c := by
    ext i hi
    simp only [BitVec.getElem_append, BitVec.getElem_extractLsb', Nat.zero_add]
    split
    · exact BitVec.getLsbD_eq_getElem hi
    · split
      · rw [show 16 + (i - 16) = i by omega]; exact BitVec.getLsbD_eq_getElem hi
      · rw [show 24 + (i - 16 - 8) = i by omega]; exact BitVec.getLsbD_eq_getElem hi
  exact h

/-- A format-Z word with zero operand fields is its command (R72). -/
@[simp] theorem decodeZ_zero (i : Instr) (op : BitVec 8) :
    decodeZ i (commandWord op 0#8 0#16) = .command i := by
  simp [decodeZ]

/-- A format-R word with a zero immediate field is RDREG (R72). -/
@[simp] theorem decodeR_zero (op reg : BitVec 8) :
    decodeR (commandWord op reg 0#16) = .command (.rdreg reg) := by
  simp [decodeR]

/-- What a format-Z word decodes to, if it decodes at all. -/
theorem decodeZ_eq_command {i j : Instr} {c : CmdWord} (h : decodeZ i c = .command j) :
    j = i ∧ regField c = 0 ∧ immField c = 0 := by
  unfold decodeZ at h
  split at h
  · cases h
  · rename_i hn
    cases h
    exact ⟨rfl, by_contra fun hr => hn (.inl hr), by_contra fun hi => hn (.inr hi)⟩

/-- What a format-R word decodes to, if it decodes at all. -/
theorem decodeR_eq_command {j : Instr} {c : CmdWord} (h : decodeR c = .command j) :
    j = .rdreg (regField c) ∧ immField c = 0 := by
  unfold decodeR at h
  split at h
  · cases h
  · rename_i hn
    cases h
    exact ⟨rfl, by_contra hn⟩

end Sys2Proof
end

