-- ==== Sys2Proof/Laws/Exec.lean ====
section
/-! SUPPORT. Once for all ten commands: everything `exec` can do. Frames and invariants cite this one lemma. -/

namespace Sys2Proof.Machine

/-- The success completion of a command over `u`, which differs from the old state `s` only in the registers and
stores the table of R62 lists for the command. -/
structure Succeeds (i : Instr) (s u : State) (data : RegWord) (bytes : List Byte) : Prop where
  responses : u.responses = s.responses
  out : u.out = s.out
  around : SameSurroundings s u
  regs : SameRegsBut (writesOf i) s u
  bits : i ∉ [Instr.sreset, .tobin] → u.bits = s.bits
  dst : i ∉ [Instr.sreset, .scalep, .scaleb] → u.dst = s.dst
  bytes_nil : i ∉ [Instr.pack, .encode] → bytes = []
  data_zero : (∀ reg, i ≠ .rdreg reg) → data = 0
  data_reg : ∀ reg, i = .rdreg reg → ∃ r, regNumber r = reg ∧ data = s.reg r

/-- Everything a command can do: one error completion, or one success completion. -/
def ErrsOrSucceeds (i : Instr) (s : State) : Prop :=
  (∃ e, e ≠ .decodeFailure ∧ exec i s = raise e s) ∨
  (∃ u data bytes, exec i s = complete data bytes u ∧ Succeeds i s u data bytes)

theorem SameSurroundings.refl (s : State) : SameSurroundings s s := ⟨rfl, rfl, rfl, rfl, rfl⟩

/-- A command that changes no register and no store. -/
theorem Succeeds.unchanged {i : Instr} {s : State} {data : RegWord} {bytes : List Byte}
    (hb : i ∉ [Instr.pack, .encode] → bytes = []) (hd : (∀ reg, i ≠ .rdreg reg) → data = 0)
    (hr : ∀ reg, i = .rdreg reg → ∃ r, regNumber r = reg ∧ data = s.reg r) : Succeeds i s s data bytes :=
  ⟨rfl, rfl, .refl s, fun _ _ => rfl, fun _ => rfl, fun _ => rfl, hb, hd, hr⟩

theorem execWrreg_shape (reg : BitVec 8) (imm : RegWord) (s : State) :
    ErrsOrSucceeds (.wrreg reg imm) s := by
  rcases execWrreg_cases reg imm s with ⟨h, _⟩ | ⟨r, hr, ha, h⟩
  · exact .inl ⟨_, by decide, h⟩
  refine .inr ⟨_, 0, [], h, rfl, rfl, ⟨rfl, rfl, rfl, rfl, rfl⟩, ?_, fun _ => rfl, fun _ => rfl, fun _ => rfl,
    fun _ => rfl, nofun⟩
  intro q hq
  refine State.reg_setReg_other _ _ ?_
  rintro rfl
  apply hq
  simp only [writesOf, regOfNumber_eq_some.2 hr]
  cases q <;> simp [regAccepts] at ha <;> simp [regNumber]

theorem execRdreg_shape (reg : BitVec 8) (s : State) : ErrsOrSucceeds (.rdreg reg) s := by
  rcases execRdreg_cases reg s with ⟨h, _⟩ | ⟨r, hr, h⟩
  · exact .inl ⟨_, by decide, h⟩
  · exact .inr ⟨s, _, [], h, .unchanged (fun _ => rfl) (fun hn => absurd rfl (hn reg))
      (by rintro _ ⟨⟩; exact ⟨r, hr, rfl⟩)⟩

theorem execClrerr_shape (s : State) : ErrsOrSucceeds .clrerr s :=
  .inr ⟨_, 0, [], rfl, rfl, rfl, ⟨rfl, rfl, rfl, rfl, rfl⟩,
    fun _ hr => State.reg_setReg_other _ _ (by simpa [writesOf] using hr), fun _ => rfl, fun _ => rfl,
    fun _ => rfl, fun _ => rfl, nofun⟩

theorem execSreset_shape (s : State) : ErrsOrSucceeds .sreset s :=
  .inr ⟨_, 0, [], rfl, rfl, rfl, ⟨rfl, rfl, rfl, rfl, rfl⟩,
    fun r hr => absurd (by cases r <;> simp [writesOf]) hr, fun h => absurd (by simp) h,
    fun h => absurd (by simp) h, fun _ => rfl, fun _ => rfl, nofun⟩

/-- What a scale operation can do, with its results inside the register width. -/
theorem scale_shape (w h : Nat) (pix : Nat → Nat → Nat → Pixel) (s : State) :
    (∃ e, e ≠ .decodeFailure ∧ scale w h pix s = raise e s) ∨
    (∃ f, scale w h pix s = complete 0 [] (s.putScaled f w h pix) ∧
      SameRegsBut [.outw, .outh, .factor] s (s.putScaled f w h pix)) := by
  rcases scale_cases w h pix s with ⟨_, he⟩ | ⟨_, _, he⟩ | ⟨_, _, _, he⟩ | ⟨_, _, _, he⟩
  · exact .inl ⟨_, by decide, he⟩
  · exact .inl ⟨_, by decide, he⟩
  · exact .inl ⟨_, by decide, he⟩
  · obtain ⟨a, b, c⟩ := scaleFactor_mul_le s w h
    have := s.num_lt .maxw; have := s.num_lt .maxh; have := s.num_lt .maxf
    exact .inr ⟨_, he, (putScaled_spec s pix (by omega) (by omega) (by omega)).2.2.2.1⟩

theorem putScaled_surroundings (s : State) (f w h : Nat) (pix : Nat → Nat → Nat → Pixel) :
    (s.putScaled f w h pix).responses = s.responses ∧ (s.putScaled f w h pix).out = s.out ∧
    (s.putScaled f w h pix).bits = s.bits ∧ SameSurroundings s (s.putScaled f w h pix) :=
  ⟨rfl, rfl, rfl, rfl, rfl, rfl, rfl, rfl⟩

theorem putRaster_surroundings (s : State) :
    s.putRaster.responses = s.responses ∧ s.putRaster.out = s.out ∧ SameSurroundings s s.putRaster :=
  ⟨rfl, rfl, rfl, rfl, rfl, rfl, rfl⟩

theorem execScalep_shape (s : State) : ErrsOrSucceeds .scalep s := by
  rcases scale_shape (s.num .srcw) (s.num .srch) (fun k x y => s.srcRead k x y) s with h | ⟨f, h, p⟩
  · exact .inl h
  · obtain ⟨a, b, c, d⟩ := putScaled_surroundings s f (s.num .srcw) (s.num .srch) (fun k x y => s.srcRead k x y)
    exact .inr ⟨_, 0, [], h, a, b, d, p, fun _ => c, fun hn => absurd (by simp) hn, fun _ => rfl,
      fun _ => rfl, nofun⟩

theorem execScaleb_shape (s : State) : ErrsOrSucceeds .scaleb s := by
  rcases scale_shape (s.num .bw) (s.num .bh) (fun _ x y => expandBit s.rasterPol (s.bit x y)) s with
    h | ⟨f, h, p⟩
  · exact .inl h
  · obtain ⟨a, b, c, d⟩ := putScaled_surroundings s f (s.num .bw) (s.num .bh)
      (fun _ x y => expandBit s.rasterPol (s.bit x y))
    exact .inr ⟨_, 0, [], h, a, b, d, p, fun _ => c, fun hn => absurd (by simp) hn, fun _ => rfl,
      fun _ => rfl, nofun⟩

theorem execTobin_shape (s : State) : ErrsOrSucceeds .tobin s := by
  rcases execTobin_cases s with ⟨_, h⟩ | ⟨_, h⟩
  · exact .inl ⟨_, by decide, h⟩
  · obtain ⟨_, _, _, _, p, _, r⟩ := putRaster_spec s
    obtain ⟨a, b, d⟩ := putRaster_surroundings s
    exact .inr ⟨_, 0, [], h, a, b, d, p, fun hn => absurd (by simp) hn, fun _ => r, fun _ => rfl,
      fun _ => rfl, nofun⟩

/-- Everything `exec` can do with any command. -/
theorem exec_cases (i : Instr) (s : State) : ErrsOrSucceeds i s := by
  cases i with
  | nop => exact .inr ⟨s, 0, [], rfl, .unchanged (fun _ => rfl) (fun _ => rfl) nofun⟩
  | wrreg reg imm => exact execWrreg_shape reg imm s
  | rdreg reg => exact execRdreg_shape reg s
  | clrerr => exact execClrerr_shape s
  | sreset => exact execSreset_shape s
  | scalep => exact execScalep_shape s
  | scaleb => exact execScaleb_shape s
  | tobin => exact execTobin_shape s
  | pack => exact .inr ⟨s, 0, packed s, rfl, .unchanged (fun h => absurd (by simp) h) (fun _ => rfl) nofun⟩
  | encode => exact .inr ⟨s, 0, codeText s, rfl, .unchanged (fun h => absurd (by simp) h) (fun _ => rfl) nofun⟩

end Sys2Proof.Machine
end

