-- ==== Sys2Proof/Laws/PerInstr.lean ====
section
/-! SUPPORT. Statements made of every command as syntax, one lemma per constructor: each command's word is a
word of its row of spec/opcode_table.json. -/

namespace Sys2Proof.Laws.TableRow

/-- The word of a command is covered by the command's row: `c & mask = match` (R72). -/
def Statement (i : Instr) : Prop := (tableRow i).covers (Sys2Proof.encode i) = true

theorem nop : Statement .nop := rfl
theorem wrreg (reg : BitVec 8) (imm : RegWord) : Statement (.wrreg reg imm) := by
  simp only [Statement, Row.covers, tableRow, Sys2Proof.encode, commandWord, beq_iff_eq]
  ext i hi
  simp only [BitVec.getElem_and, BitVec.getElem_append]
  by_cases h1 : i < 16
  · simp [h1]; interval_cases i <;> simp
  · by_cases h2 : i < 24
    · simp [h1, show i - 16 < 8 by omega]; interval_cases i <;> simp
    · interval_cases i <;> first | omega | simp
theorem rdreg (reg : BitVec 8) : Statement (.rdreg reg) := by
  simp only [Statement, Row.covers, tableRow, Sys2Proof.encode, commandWord, beq_iff_eq]
  ext i hi
  simp only [BitVec.getElem_and, BitVec.getElem_append]
  by_cases h1 : i < 16
  · simp [h1]; interval_cases i <;> simp
  · by_cases h2 : i < 24
    · simp [h1, show i - 16 < 8 by omega]; interval_cases i <;> simp
    · interval_cases i <;> first | omega | simp
theorem clrerr : Statement .clrerr := rfl
theorem sreset : Statement .sreset := rfl
theorem scalep : Statement .scalep := rfl
theorem scaleb : Statement .scaleb := rfl
theorem tobin : Statement .tobin := rfl
theorem pack : Statement .pack := rfl
theorem encode : Statement .encode := rfl

end Sys2Proof.Laws.TableRow
end

