-- ==== Sys2Proof/Laws/Step.lean ====
section
/-! SUPPORT. What one step can do: nothing while no input waits, or one input served. -/

namespace Sys2Proof.Machine

/-- One step: the block is idle, or the next input is served (R60). -/
theorem step_cases {s t : State} (h : step s = .next t) :
    (s.pending = [] ∧ t = s) ∨ ∃ e rest, s.pending = e :: rest ∧ serve e (s.take rest) = .next t := by
  unfold step serveNext at h
  split at h
  · rename_i hp; cases h; exact .inl ⟨hp, rfl⟩
  · rename_i e rest hp; exact .inr ⟨e, rest, hp, h⟩

/-- Serving the next input is one step. -/
theorem step_of_pending {s : State} {e : Event} {rest : List Event} (h : s.pending = e :: rest) :
    step s = serve e (s.take rest) := by
  unfold step serveNext
  rw [h]

/-- A command word runs the command it decodes to, or completes as an illegal command (R75, R76). -/
theorem runWord_cases (c : CmdWord) (s : State) :
    (∃ i, decode c = .command i ∧ runWord c s = exec i s) ∨
    (∃ why, decode c = .illegal why ∧ runWord c s = raise .illegalCommand s) := by
  unfold runWord illegalWord
  cases h : decode c with
  | command i => exact .inl ⟨i, rfl, rfl⟩
  | illegal why => exact .inr ⟨why, rfl, rfl⟩

end Sys2Proof.Machine
end

