-- ==== Sys2Proof/Machine/Assembler.lean ====
section
/-! DEFINITION. The assembler syntax (R78) and the pseudo-commands in it (R79): one line of source text, as a
list of characters, to the commands it stands for. No state of the machine is involved. Log entry 15 says
what R78 leaves open. -/

namespace Sys2Proof.Asm

/-- A blank: a space or a tab. -/
def isBlank (c : Char) : Bool := c == ' ' || c == '\t'

/-- The line up to its comment: "`;` starts a comment that runs to the end of the line" (R78). -/
def stripComment (l : List Char) : List Char := l.takeWhile fun c => c != ';'

/-- A text without the blanks around it. -/
def trim (l : List Char) : List Char := ((l.dropWhile isBlank).reverse.dropWhile isBlank).reverse

/-- The pieces of a text between separators. -/
def pieces (sep : Char) (cur : List Char) : List Char → List (List Char)
  | []      => [cur]
  | c :: cs => if c = sep then cur :: pieces sep [] cs else pieces sep (cur ++ [c]) cs

/-- The value of a digit in a base up to 16; both cases of a letter are read. -/
def digit (base : Nat) (c : Char) : Option Nat :=
  let n := c.toNat
  let v := if 48 ≤ n ∧ n ≤ 57 then n - 48 else if 97 ≤ n ∧ n ≤ 102 then n - 87
    else if 65 ≤ n ∧ n ≤ 70 then n - 55 else base
  if v < base then some v else none

/-- The value of a non-empty string of digits. -/
def digits (base : Nat) (l : List Char) : Option Nat :=
  if l = [] then none
  else l.foldl (fun acc c => acc.bind fun v => (digit base c).map fun d => base * v + d) (some 0)

/-- A numeral: "decimal, or hexadecimal with `0x`" (R78). -/
def numeral : List Char → Option Nat
  | '0' :: 'x' :: l => digits 16 l
  | l               => digits 10 l

/-- An immediate: "must be 0 to 65535" (R78). -/
def immediate (l : List Char) : Option RegWord :=
  (numeral l).bind fun n => if n ≤ 65535 then some (BitVec.ofNat 16 n) else none

/-- The symbolic values of CTRL (R78). -/
def ctrlSymbol (l : List Char) : Option Nat :=
  if l = ['D','A','R','K','1'] then some 0
  else if l = ['L','I','G','H','T','1'] then some 1
  else if l = ['R','G','B','8','8','8'] then some 0
  else if l = ['G','R','A','Y','8'] then some 2
  else none

/-- An immediate written as a sum of the symbolic values of CTRL (R78). -/
def ctrlSum (l : List Char) : Option RegWord :=
  ((pieces '+' [] l).foldl (fun acc p => acc.bind fun v => (ctrlSymbol (trim p)).map fun d => v + d)
    (some 0)).bind fun n => if n ≤ 65535 then some (BitVec.ofNat 16 n) else none

/-- The name of a register (R78). -/
def regName : Reg → List Char
  | .srcw     => ['S','R','C','W']
  | .srch     => ['S','R','C','H']
  | .maxw     => ['M','A','X','W']
  | .maxh     => ['M','A','X','H']
  | .maxf     => ['M','A','X','F']
  | .thresh   => ['T','H','R','E','S','H']
  | .ctrl     => ['C','T','R','L']
  | .status   => ['S','T','A','T','U','S']
  | .bw       => ['B','W']
  | .bh       => ['B','H']
  | .rowbytes => ['R','O','W','B','Y','T','E','S']
  | .bpol     => ['B','P','O','L']
  | .outw     => ['O','U','T','W']
  | .outh     => ['O','U','T','H']
  | .factor   => ['F','A','C','T','O','R']

/-- The registers in the order of their numbers (R22). -/
def allRegs : List Reg :=
  [.srcw, .srch, .maxw, .maxh, .maxf, .thresh, .ctrl, .status, .bw, .bh, .rowbytes, .bpol, .outw, .outh,
   .factor]

/-- A register operand: a name, or `r<n>` with `n` decimal 0 to 255 (R78). -/
def register (l : List Char) : Option (BitVec 8) :=
  match allRegs.find? (fun r => regName r == l) with
  | some r => some (regNumber r)
  | none   =>
    match l with
    | 'r' :: n => (digits 10 n).bind fun v => if v ≤ 255 then some (BitVec.ofNat 8 v) else none
    | _        => none

/-- The immediate of a WRREG: for CTRL it may be a symbolic sum (R78). -/
def immediateFor (reg : BitVec 8) (l : List Char) : Option RegWord :=
  match immediate l with
  | some v => some v
  | none   => if reg = regNumber .ctrl then ctrlSum l else none

/-- A mnemonic with its operands, as the commands it stands for (R78, R79). -/
def statement (mnemonic : List Char) (operands : List (List Char)) : Option (List Instr) :=
  match operands with
  | [] =>
    if mnemonic = ['N','O','P'] then some [.nop]
    else if mnemonic = ['C','L','R','E','R','R'] then some [.clrerr]
    else if mnemonic = ['S','R','E','S','E','T'] then some [.sreset]
    else if mnemonic = ['S','C','A','L','E','P'] then some [.scalep]
    else if mnemonic = ['S','C','A','L','E','B'] then some [.scaleb]
    else if mnemonic = ['T','O','B','I','N'] then some [.tobin]
    else if mnemonic = ['P','A','C','K'] then some [.pack]
    else if mnemonic = ['E','N','C','O','D','E'] then some [.encode]
    else if mnemonic = ['C','O','N','V','E','R','T'] then some (expandPseudo .convert)
    else if mnemonic = ['P','R','E','V','I','E','W'] then some (expandPseudo .preview)
    else none
  | [a] =>
    if mnemonic = ['R','D','R','E','G'] then (register a).map fun r => [.rdreg r] else none
  | [a, b] =>
    if mnemonic = ['W','R','R','E','G'] then
      (register a).bind fun r => (immediateFor r b).map fun v => [.wrreg r v]
    else if mnemonic = ['S','E','T','S','R','C'] then
      (immediate a).bind fun w => (immediate b).map fun h => expandPseudo (.setsrc w h)
    else none
  | [a, b, c] =>
    if mnemonic = ['S','E','T','B','O','X'] then
      (immediate a).bind fun w => (immediate b).bind fun h => (immediate c).map fun f =>
        expandPseudo (.setbox w h f)
    else none
  | _ => none

/-- One line of source text: `none` where it is no line of R78's syntax, the empty list for a line that is
blank but for a comment. -/
def line (l : List Char) : Option (List Instr) :=
  let body := trim (stripComment l)
  let mnemonic := body.takeWhile fun c => !isBlank c
  let rest := trim (body.dropWhile fun c => !isBlank c)
  if body = [] then some []
  else statement mnemonic (if rest = [] then [] else (pieces ',' [] rest).map trim)

/-- The command words of a line (R78). -/
def lineWords (l : List Char) : Option (List CmdWord) := (line l).map fun is => is.map encode

end Sys2Proof.Asm
end

