-- ==== Sys2Proof/Tests/Slice0.lean ====
section
/-! SUPPORT. Tests. Expected values are the spec's: spec/95_test_vectors.md (V and P numbers), the examples of
the command rules, or worked by hand from a rule. The witnesses at the end meet the hypotheses of the
statements in Certificates/Slice0/Obligations.lean. -/

namespace Sys2Proof.Tests

open Sys2Proof Sys2Proof.Machine

/-! ### Helpers -/

/-- The next state of an outcome. -/
def nextOf : Host.Outcome State Fault Refusal → Option State
  | .next t    => some t
  | .fault _   => none
  | .refused _ => none

/-- A view of the state a command leads to. -/
def after {α : Type} (i : Instr) (s : State) (f : State → α) : Option α := (nextOf (exec i s)).map f

/-- A view of the state one step on a word of the table leads to, from reset. -/
def stepped {α : Type} (w : Nat) (s : State) (f : State → α) : Option α :=
  (nextOf (step (s.withFetchWord 32 w))).map f

/-- The reset state with some registers written. -/
def withRegs (l : List (Reg × RegWord)) : State := l.foldl (fun s p => s.setReg p.1 p.2) State.reset

/-- A state with a source buffer offered and SRCW, SRCH set to its size. -/
def withSource (s : State) (w h : Nat) (pixels : List Pixel) : State :=
  { (s.setReg .srcw (BitVec.ofNat 16 w)).setReg .srch (BitVec.ofNat 16 h) with
    src := { width := w, height := h, pixels := pixels, steady := true } }

/-- A state whose BITS store holds a raster. -/
def withRaster (s : State) (w h : Nat) (bits : List Bool) : State :=
  (((s.setReg .bw (BitVec.ofNat 16 w)).setReg .bh (BitVec.ofNat 16 h)).setReg .rowbytes
    (BitVec.ofNat 16 ((w + 7) / 8))).setBits bits

/-- The raster `[1 0]` of V1. -/
def raster21 : State := withRaster State.reset 2 1 [true, false]

/-- The raster of V46, 10 × 2. -/
def raster102 : State := withRaster State.reset 10 2
  [true, false, true, false, true, false, true, false, true, true,
   false, false, false, false, false, false, false, false, false, true]

/-- The source image of P3, in the box of V39a. -/
def image32 : State := withSource (withRegs [(.maxw, 7), (.maxh, 9), (.maxf, 2)]) 3 2 [1, 2, 3, 4, 5, 6]

/-- The source image of V1. -/
def image21 : State := withSource State.reset 2 1 [black, white]

/-! ### WellFormed: an ill-formed command for each check -/

theorem test_wellFormed_refuses_readonly_register : ¬ (Instr.wrreg 7 0).WellFormed := by decide
theorem test_wellFormed_refuses_wrreg_of_no_register : ¬ (Instr.wrreg 15 0).WellFormed := by decide
theorem test_wellFormed_refuses_thresh_256 : ¬ (Instr.wrreg 5 256).WellFormed := by decide
theorem test_wellFormed_refuses_ctrl_4 : ¬ (Instr.wrreg 6 4).WellFormed := by decide
theorem test_wellFormed_refuses_rdreg_15 : ¬ (Instr.rdreg 15).WellFormed := by decide
theorem test_wellFormed_accepts_the_bounds :
    (Instr.wrreg 5 255).WellFormed ∧ (Instr.wrreg 6 3).WellFormed ∧ (Instr.rdreg 14).WellFormed := by decide

/-! ### Decoding: words written out bit by bit from R71, R72 and R74 -/

theorem test_decode_nop : decode 0b00000000_00000000_0000000000000000 = .command .nop := by decide
theorem test_decode_wrreg :
    decode 0b00000001_00000101_0000000001100100 = .command (.wrreg 5 100) := by decide
theorem test_decode_rdreg : decode 0b00000010_00001110_0000000000000000 = .command (.rdreg 14) := by decide
theorem test_decode_clrerr : decode 0b00000011_00000000_0000000000000000 = .command .clrerr := by decide
theorem test_decode_sreset : decode 0b00000100_00000000_0000000000000000 = .command .sreset := by decide
theorem test_decode_scalep : decode 0b00010000_00000000_0000000000000000 = .command .scalep := by decide
theorem test_decode_scaleb : decode 0b00010001_00000000_0000000000000000 = .command .scaleb := by decide
theorem test_decode_tobin : decode 0b00100000_00000000_0000000000000000 = .command .tobin := by decide
theorem test_decode_pack : decode 0b00110000_00000000_0000000000000000 = .command .pack := by decide
theorem test_decode_encode : decode 0b00110001_00000000_0000000000000000 = .command .encode := by decide

/-- V11, V19d, V19h, V19i, V19k: the three kinds of illegal word. -/
theorem test_decode_illegal :
    decode 0x00000001 = .illegal (.nonzeroOperandZ 0 1) ∧ decode 0x02020001 = .illegal (.nonzeroImmR 1) ∧
    decode 0x04010000 = .illegal (.nonzeroOperandZ 1 0) ∧ decode 0x05000000 = .illegal (.reservedOpcode 5) ∧
    decode 0xFFFFFFFF = .illegal (.reservedOpcode 0xFF) := by decide

theorem test_decodeTableWord : decodeTableWord 32 0x010600FF = some (.wrreg 6 255) ∧
    decodeTableWord 32 0x10000000 = some .scalep ∧ decodeTableWord 32 0x10000001 = none := by decide

/-! ### Commands -/

/-- V12 and V15: a write, and THRESH above 255. -/
theorem test_wrreg_srcw : stepped 0x01000140 State.reset (fun t => (t.regs.srcw, t.responses)) =
    some (320, [0x00000000]) := by decide
theorem test_wrreg_thresh_256 :
    stepped 0x01050100 State.reset (fun t => (t.regs.thresh, t.regs.status, t.responses)) =
      some (128, 0x0008, [0x03000000]) := by decide

/-- V19b and V19e. -/
theorem test_rdreg_maxw : stepped 0x02020000 State.reset (fun t => t.responses) = some [0x000001F4] := by decide
theorem test_rdreg_255 : stepped 0x02FF0000 State.reset (fun t => (t.regs.status, t.responses)) =
    some (0x0008, [0x03000000]) := by decide

/-- V10: a step on NOP answers 0 and takes the word. -/
theorem test_nop : stepped 0x00000000 State.reset (fun t => (t.regs, t.pending, t.responses)) =
    some (RegFile.reset, [], [0]) := by decide

/-- The example of R93. -/
theorem test_clrerr : stepped 0x03000000 (withRegs [(.status, 0x000A)]) (fun t => (t.regs.status, t.responses)) =
    some (0, [0]) := by decide

/-- The example of R94. -/
theorem test_sreset : stepped 0x04000000 (withRegs [(.maxw, 100), (.bw, 8), (.status, 2)])
    (fun t => (t.regs, t.responses)) = some (RegFile.reset, [0]) := by decide

/-- V39a, P3: SCALEP with F = 2. -/
theorem test_scalep : after .scalep image32 (fun t => (t.dst, t.regs.outw, t.regs.outh, t.regs.factor)) =
    some ([1, 1, 2, 2, 3, 3, 1, 1, 2, 2, 3, 3, 4, 4, 5, 5, 6, 6, 4, 4, 5, 5, 6, 6], 6, 4, 2) := by decide

/-- V38c: priority of InvalidDimension over FactorUnderflow. -/
theorem test_scalep_priority :
    after .scalep (withRegs [(.srcw, 600), (.srch, 100), (.maxf, 0)]) (fun t => (t.regs.status, t.responses)) =
      some (0x0002, [0x01000000]) := by decide

/-- V39c and V39d: one row of SCALEB in either polarity. -/
theorem test_scaleb_darkIsOne : after .scaleb (((raster21.setReg .maxw 6).setReg .maxh 3)) (fun t => t.dst.take 6) =
    some [0x000000, 0x000000, 0x000000, 0xFFFFFF, 0xFFFFFF, 0xFFFFFF] := by decide
theorem test_scaleb_lightIsOne :
    after .scaleb (((raster21.setReg .maxw 6).setReg .maxh 3).setReg .bpol 1) (fun t => t.dst.take 6) =
      some [0xFFFFFF, 0xFFFFFF, 0xFFFFFF, 0x000000, 0x000000, 0x000000] := by decide

/-- V75: an RGB888 row, darkIsOne; byte A6. -/
theorem test_tobin_rgb888 :
    after .tobin (withSource State.reset 8 1
        [0xFF0000, 0x00FF00, 0x0000FF, 0xFFFF00, 0x00FFFF, 0xFF00FF, 0x7F7F7F, 0x808080]) (fun t => t.bits) =
      some [true, false, true, false, false, true, true, false] := by decide

/-- V72, lightIsOne: a GRAY8 row, and what TOBIN writes beside it. -/
theorem test_tobin_gray8 :
    after .tobin (withSource (withRegs [(.ctrl, 3)]) 6 1 [0, 1, 127, 128, 254, 255])
        (fun t => (t.bits, t.regs.bw, t.regs.bh, t.regs.rowbytes, t.regs.bpol)) =
      some ([false, false, false, true, true, true], 6, 1, 1, 1) := by decide

/-- V46 and V42: MSB-first, rows padded. -/
theorem test_pack_two_rows : after .pack raster102 (fun t => t.output) = some [0xAA, 0xC0, 0x00, 0x40] := by decide
theorem test_pack_16 : after .pack (withRaster State.reset 16 1
    [false, false, false, false, true, true, true, true, true, false, true, false, false, true, false, true])
    (fun t => t.out) = some [0x0F, 0xA5] := by decide

/-- V46: the text of two rows; V1: the text of the 2 × 1 image. -/
theorem test_encode_two_rows : after .encode raster102 (fun t => t.output) =
    some [0x7B, 0x0A, 0x30, 0x78, 0x61, 0x61, 0x2C, 0x30, 0x78, 0x63, 0x30, 0x2C, 0x0A, 0x30, 0x78, 0x30, 0x2C,
      0x30, 0x78, 0x34, 0x30, 0x0A, 0x7D, 0x3B, 0x0A] := by decide
theorem test_encode_v1 : after .encode raster21 (fun t => t.output) =
    some [0x7B, 0x0A, 0x30, 0x78, 0x38, 0x30, 0x0A, 0x7D, 0x3B, 0x0A] := by decide

/-! ### Luma (V52 to V66), text, and the reader of R150 -/

theorem test_luma_rgb : [0xFF0000, 0x00FF00, 0x0000FF, 0x0000FA, 0x000005, 0x00DA00, 0x00D900, 0xC86432].map lumaRgb =
    [76, 150, 29, 29, 1, 128, 127, 124] := by decide
theorem test_luma_gray : lumaGray 0xFFFF00 = 0 := by decide
theorem test_arrayText_v44 : arrayText [[0x80], [0x40], [0x20]] =
    [0x7B, 0x0A, 0x30, 0x78, 0x38, 0x30, 0x2C, 0x0A, 0x30, 0x78, 0x34, 0x30, 0x2C, 0x0A, 0x30, 0x78, 0x32, 0x30,
      0x0A, 0x7D, 0x3B, 0x0A] := by decide
theorem test_readBack_two_rows : (after .encode raster102 (fun t => readBack t.output)) =
    some [0xAA, 0xC0, 0x00, 0x40] := by decide

/-! ### Inputs other than commands -/

/-- R185: hardware reset keeps what was emitted (R187). -/
theorem test_hardwareReset : (nextOf (serve .hardwareReset { raster21 with out := [0x80] })).map
    (fun t => (t.regs, t.bits, t.out)) = some (RegFile.reset, [], [0x80]) := by decide

/-- R186: an abandoned command that emits nothing leaves the reset state and no response. -/
theorem test_resetDuring : (nextOf (serve (.resetDuring 0x01000140) raster21)).map
    (fun t => (t.regs, t.bits, t.responses)) = some (RegFile.reset, [], []) := by decide

/-- R54: a read inside the scaled buffer of V39a, at column 5, row 3. -/
theorem test_displayRead : (after .scalep image32 (fun t => t.dstRead false 5 3)) = some 6 := by decide

/-- R37: the sink takes from the front. -/
theorem test_sinkTake : (nextOf (serve (.sinkTake 1) { State.reset with out := [1, 2] })).map (fun t => t.out) =
    some [2] := by decide

/-! ### The assembler (R78, R79) -/

/-- ` WRREG CTRL, LIGHT1+GRAY8 ; c` is `0x01060003`. -/
theorem test_asm_symbolic : Asm.lineWords
    [' ','W','R','R','E','G',' ','C','T','R','L',',',' ','L','I','G','H','T','1','+','G','R','A','Y','8',' ',';','c'] =
      some [0x01060003] := by decide
/-- `RDREG r15` is `0x020F0000`. -/
theorem test_asm_number : Asm.lineWords ['R','D','R','E','G',' ','r','1','5'] = some [0x020F0000] := by decide
/-- `SETBOX 7, 0x9, 2` is three words of P3. -/
theorem test_asm_pseudo : Asm.lineWords ['S','E','T','B','O','X',' ','7',',','0','x','9',',','2'] =
    some [0x01020007, 0x01030009, 0x01040002] := by decide
/-- An immediate above 65535 and an unknown register are no line of the syntax. -/
theorem test_asm_refuses : Asm.lineWords ['W','R','R','E','G',' ','r','0',',','6','5','5','3','6'] = none ∧
    Asm.lineWords ['R','D','R','E','G',' ','r','2','5','6'] = none := by decide

/-! ### Witnesses: states and operands that meet the hypotheses of the statements, at their bounds -/

/-- StepRunsTheDecodedCommand, EveryStepAnswersNext: both kinds of word, and an empty queue. -/
theorem witness_step :
    (State.reset.withFetchWord 32 0).pending = [.command 0] ∧ decode 0 = .command .nop ∧
    (State.reset.withFetchWord 32 1).pending = [.command 1] ∧ decode 1 = .illegal (.nonzeroOperandZ 0 1) ∧
    State.reset.pending = [] := by decide

/-- FailedCommandChangesOnlyItsStatusFlag: a failing command of each error the reset state can show. -/
theorem witness_failed : (nextOf (runWord 0x10000000 State.reset)).map (fun t => t.responses) =
      some (State.reset.responses ++ [0x01000000]) ∧ codeField 0x01000000 ≠ 0 ∧
    (nextOf (runWord 0x05000000 State.reset)).map (fun t => t.responses) =
      some (State.reset.responses ++ [0x03000000]) ∧ codeField 0x03000000 ≠ 0 := by decide

/-- IllegalWordsAreExactlyTheSevenCases: a word of each case, and words just outside them. -/
theorem witness_illegal_words :
    IsIllegalWord 0x05000000 ∧ IsIllegalWord 0x31000001 ∧ IsIllegalWord 0x02000001 ∧ IsIllegalWord 0x020F0000 ∧
    IsIllegalWord 0x01070000 ∧ IsIllegalWord 0x010E0000 ∧ IsIllegalWord 0x01050100 ∧
    IsIllegalWord 0x01060004 := by
  refine ⟨?_, ?_, ?_, ?_, ?_, ?_, ?_, ?_⟩ <;> decide
theorem witness_legal_words :
    ¬ IsIllegalWord 0x31000000 ∧ ¬ IsIllegalWord 0x020E0000 ∧ ¬ IsIllegalWord 0x01000000 ∧
    ¬ IsIllegalWord 0x010500FF ∧ ¬ IsIllegalWord 0x01060003 := by
  refine ⟨?_, ?_, ?_, ?_, ?_⟩ <;> decide

/-- DecoderFollowsTheOpcodeMap: words that decode to commands that are not permitted, at the bounds. -/
theorem witness_decoded_but_not_permitted :
    decode 0x01070000 = .command (.wrreg 7 0) ∧ (Instr.wrreg 7 0).wellFormed = false ∧
    decode 0x020F0000 = .command (.rdreg 15) ∧ (Instr.rdreg 15).wellFormed = false := by decide

/-- StatusFlagsStayUntilCleared: a step of either branch, with a flag set. -/
theorem witness_status :
    (nextOf (step ((withRegs [(.status, 2)]).withFetchWord 32 0x03000000))).isSome = true ∧
    Event.command 0x03000000 = .command (encode .clrerr) ∧ Event.command 0x04000000 = .command (encode .sreset) ∧
    (nextOf (step ((withRegs [(.status, 2)]).withFetchWord 32 0x05000000))).isSome = true ∧
    Event.command 0x05000000 ≠ .command (encode .clrerr) ∧ Event.command 0x05000000 ≠ .command (encode .sreset) ∧
    (withRegs [(.status, 2)]).reg .status = 2 := by decide

/-- CommandsThatCannotFail, DefaultCapacitiesAreNeverExceeded: the default parameters; RDREG at both bounds. -/
theorem witness_defaults : State.reset.params = Params.default ∧ (0 : BitVec 8).toNat ≤ 14 ∧
    (14 : BitVec 8).toNat ≤ 14 := by decide

/-- NopChangesNothing, ClrerrClearsOnlyStatus, SresetEqualsHardwareReset, RdregAnswersTheRegister: malformed words
of the four opcodes. -/
theorem witness_malformed :
    (0x00000001 : CmdWord).extractLsb' 24 8 = 0x00 ∧ (0x00000001 : CmdWord).extractLsb' 0 24 ≠ 0 ∧
    (0x03800000 : CmdWord).extractLsb' 24 8 = 0x03 ∧ (0x03800000 : CmdWord).extractLsb' 0 24 ≠ 0 ∧
    (0x04010000 : CmdWord).extractLsb' 24 8 = 0x04 ∧ (0x04010000 : CmdWord).extractLsb' 0 24 ≠ 0 ∧
    (0x02020001 : CmdWord).extractLsb' 24 8 = 0x02 ∧ (0x02020001 : CmdWord).extractLsb' 0 16 ≠ 0 := by decide

/-- WrregWritesTheNamedRegisterOrFails, RdregAnswersTheRegister: every branch at its bound. -/
theorem witness_register_bounds :
    6 < (7 : BitVec 8).toNat ∧ ((5 : BitVec 8).toNat = 5 ∧ 255 < (256 : RegWord).toNat) ∧
    ((6 : BitVec 8).toNat = 6 ∧ (4 : RegWord).extractLsb' 2 14 ≠ 0) ∧
    ¬ (6 < (5 : BitVec 8).toNat ∨ ((5 : BitVec 8).toNat = 5 ∧ 255 < (255 : RegWord).toNat) ∨
      ((5 : BitVec 8).toNat = 6 ∧ (255 : RegWord).extractLsb' 2 14 ≠ 0)) ∧
    ¬ (6 < (6 : BitVec 8).toNat ∨ ((6 : BitVec 8).toNat = 5 ∧ 255 < (3 : RegWord).toNat) ∨
      ((6 : BitVec 8).toNat = 6 ∧ (3 : RegWord).extractLsb' 2 14 ≠ 0)) ∧
    14 < (15 : BitVec 8).toNat ∧ ¬ 14 < (14 : BitVec 8).toNat := by decide

/-- EveryResetGivesTheListedValues: the two resets answer a next state. -/
theorem witness_resets : (nextOf (exec .sreset raster21)).isSome = true ∧
    (nextOf (serve .hardwareReset raster21)).isSome = true := by decide

/-- ScalepScalesTheSourceImage, ScalebScalesTheRaster: a state for each branch: a zero input; one pixel too wide;
one pixel over the capacity; a capacity that is just enough. -/
theorem witness_scale_branches :
    State.reset.num .srcw = 0 ∧
    scaleFactor (withRegs [(.srcw, 501), (.srch, 1)]) 501 1 = 0 ∧
    scaleFactor (withRegs [(.srcw, 500), (.srch, 300)]) 500 300 = 1 ∧
    (after .scalep { image32 with params := { bitsCap := 0, dstCap := 23 } } (fun t => t.responses) =
      some [0x05000000]) ∧
    (after .scalep { image32 with params := { bitsCap := 0, dstCap := 24 } } (fun t => t.responses) = some [0]) ∧
    (after .scaleb { raster21 with params := { bitsCap := 2, dstCap := 49 } } (fun t => t.responses) =
      some [0x05000000]) ∧
    (after .scaleb { raster21 with params := { bitsCap := 2, dstCap := 50 } } (fun t => t.responses) =
      some [0]) := by decide

/-- FactorUnderflowsExactlyWhenTheImageIsTooLarge, IntegerFactorIsTheFloorOfTheRealFactor: five non-zero inputs for an
image that fits exactly, one that is too wide, one too tall, and a raster. -/
theorem witness_factor :
    (∀ p ∈ ([(500, 300), (501, 1), (1, 301)] : List (Nat × Nat)),
      ∀ s ∈ [withRegs [(.srcw, BitVec.ofNat 16 p.1), (.srch, BitVec.ofNat 16 p.2)]],
        p.1 = s.num .srcw ∧ p.2 = s.num .srch ∧ 0 < p.1 ∧ 0 < p.2 ∧ 0 < s.num .maxw ∧ 0 < s.num .maxh ∧
        0 < s.num .maxf) ∧
    (2 = raster21.num .bw ∧ 1 = raster21.num .bh ∧ 0 < raster21.num .maxw ∧ 0 < raster21.num .maxh ∧
      0 < raster21.num .maxf) := by decide

/-- IntegerFactorIsTheFloorOfTheRealFactor: a rounding function that keeps the integers, and a positive factor. -/
theorem witness_rounding : ∃ (round : ℚ → ℤ) (f : Nat), (∀ n : ℤ, round n = n) ∧ 0 < f :=
  ⟨fun q => ⌊q⌋, 1, fun n => Int.floor_intCast n, by decide⟩

/-- ScaledPixelsAreEqualBlocksInsideTheEnvelope: a source image the collaborator covers, with its pixels and a
successful SCALEP. -/
theorem witness_blocks_of_a_source :
    SourceCovers image32 ∧ image32.num .srcw = 3 ∧ image32.num .srch = 2 ∧
    (∀ x y, x < 3 → y < 2 →
      image32.src.pixels[y * image32.src.width + x]? = some (BitVec.ofNat 24 (y * 3 + x + 1))) ∧
    after .scalep image32 (fun t => t.responses) = some (image32.responses ++ [0]) := by
  refine ⟨by decide, by decide, by decide, fun x y hx hy => ?_, by decide⟩
  interval_cases x <;> interval_cases y <;> decide

/-- ScaledPixelsAreEqualBlocksInsideTheEnvelope: a raster, and a successful SCALEB. -/
theorem witness_blocks_of_a_raster :
    raster21.num .bw = 2 ∧ raster21.num .bh = 1 ∧
    (∃ pix : Nat → Nat → Pixel, ∀ x y, pix x y = if raster21.bit x y = raster21.rasterPol then white else black) ∧
    after .scaleb raster21 (fun t => t.responses) = some (raster21.responses ++ [0]) :=
  ⟨by decide, by decide, ⟨_, fun _ _ => rfl⟩, by decide⟩

/-- TobinBinarizesTheSourceImage: the capacity just enough, and one bit short. -/
theorem witness_tobin_branches :
    (after .tobin { image21 with params := { bitsCap := 2, dstCap := 0 } } (fun t => t.responses) = some [0]) ∧
    (after .tobin { image21 with params := { bitsCap := 1, dstCap := 0 } } (fun t => t.responses) =
      some [0x05000000]) := by decide

/-- TobinBinarizesTheSourceImage: a WRREG after a TOBIN. -/
theorem witness_wrreg_after_tobin :
    ((nextOf (exec .tobin image21)).bind fun t => nextOf (exec (.wrreg 6 1) t)).isSome = true := by decide

/-- EmptyImageGivesTheEmptyRaster: no columns, and no rows. -/
theorem witness_empty_image : (withRegs [(.srch, 5)]).num .srcw = 0 ∧ (withRegs [(.srcw, 5)]).num .srch = 0 := by
  decide

/-- RethresholdIsIdempotent, ThresholdAndPolarityOfAPixel: both bounds, and a GRAY8 pixel of either kind. -/
theorem witness_threshold : (1 ≤ 1 ∧ 1 ≤ 255) ∧ (1 ≤ 255 ∧ 255 ≤ 255) ∧ lumaGray 0xABCD00 = 0 ∧
    lumaGray 0xABCDFF = 255 := by decide

/-- BinarizedPreviewGivesBackTheRaster: a raster that scales with factor 1, and one with factor 5. -/
theorem witness_preview :
    Memory.wf raster21 ∧ raster21.ctrlPol = raster21.rasterPol ∧ 1 ≤ raster21.num .thresh ∧
    after .scaleb raster21 (fun t => (t.responses, t.num .outw * t.num .outh, t.num .factor)) = some ([0], 50, 5) ∧
    after .scaleb (raster21.setReg .maxf 1) (fun t => (t.responses, t.num .outw * t.num .outh, t.num .factor)) =
      some ([0], 2, 1) ∧ 50 ≤ raster21.params.bitsCap := by decide

/-- PackEmitsTheRowsMsbFirst, EncodeEmitsTheArrayLiteral, EncodeOutputSeparators, EncodeOutputLength: a raster with a
full byte and a padded one in a row; the two empty rasters. -/
theorem witness_rasters : raster102.num .bh = 2 ∧ (raster102.num .bw + 7) / 8 = 2 ∧ 8 * 1 + 1 < raster102.num .bw ∧
    ¬ 8 * 1 + 2 < raster102.num .bw ∧ (withRaster State.reset 0 5 []).num .bw = 0 ∧
    (withRaster State.reset 5 0 []).num .bh = 0 := by decide

/-- OutputsDependOnlyOnTheRaster: two different states that agree on the raster. -/
theorem witness_same_raster :
    raster21 ≠ raster21.setReg .thresh 1 ∧ raster21.reg .bw = (raster21.setReg .thresh 1).reg .bw ∧
    raster21.reg .bh = (raster21.setReg .thresh 1).reg .bh ∧
    raster21.bits = (raster21.setReg .thresh 1).bits := by decide

/-- CommandsReadOnlyWhatTheTableLists: two different states that agree on what TOBIN and SCALEP read. -/
theorem witness_same_inputs :
    image21 ≠ image21.setReg .status 2 ∧ image21.params = (image21.setReg .status 2).params ∧
    (∀ r ∈ readsOf .tobin ++ readsOf .scalep, image21.reg r = (image21.setReg .status 2).reg r) ∧
    ∀ k x y, x < image21.num .srcw → y < image21.num .srch →
      image21.srcRead k x y = (image21.setReg .status 2).srcRead k x y :=
  ⟨by decide, rfl, by decide, fun _ _ _ _ _ => rfl⟩

/-- WritingSettingsKeepsTheRaster: a write that changes a setting, and one that is refused. -/
theorem witness_setting : after (.wrreg 6 1) raster21 (fun t => t.reg .ctrl) = some 1 ∧
    after (.wrreg 7 1) raster21 (fun t => t.reg .ctrl) = some 0 := by decide

/-- InvariantIsKeptByEveryStep, DisplayReadAnswersTheScaledBuffer: a state that meets the invariant, holds a scaled
buffer and takes a step, and a position at the end of its window. -/
theorem witness_invariant :
    BlockInv raster21 ∧ BlockInv raster102 ∧ BlockInv State.reset ∧
    after .scaleb raster21 (fun t => (decide (BlockInv t), t.num .outw, t.num .outh)) = some (true, 10, 5) ∧
    (nextOf (step (raster21.withFetchWord 32 0x11000000))).isSome = true ∧
    (9 : RegWord).toNat < 10 ∧ (4 : RegWord).toNat < 5 := by decide

/-- ConversionOfASteadyImageIsDeterministic: two states at different draw numbers, with one covered source image
within the capacity. -/
theorem witness_conversion :
    SourceCovers image21 ∧ image21 ≠ { image21 with draws := 7 } ∧
    (∀ r ∈ [Reg.srcw, .srch, .thresh, .ctrl], image21.reg r = State.reg { image21 with draws := 7 } r) ∧
    image21.num .srcw * image21.num .srch ≤ image21.params.bitsCap := by decide

/-- BlocksSideBySideAreIndependent: two blocks, and a step of the second. -/
theorem witness_blocks_side_by_side : [raster21, State.reset][1]? = some State.reset ∧ (0 : Nat) ≠ 1 := by decide

end Sys2Proof.Tests
end

section
/-! PROOFS. The relations of R41 between commands (`BlockInv`): what each state operation keeps of them, then
each command, each input, and every step (O48). -/

namespace Sys2Proof.Machine

/-! ### The bits held for a register -/

/-- What a register holds after a write: the whole value for the register written, the old bits for the others. -/
theorem RegFile.held_write (f : RegFile) (r q : Reg) (v : RegWord) :
    (f.write r v).held q = if q = r then v else f.held q := by
  cases r <;> cases q <;> rfl

/-- A value CTRL takes fits its two used bits (R27, R91). -/
theorem toNat_le_three_of_extractLsb'_eq_zero {v : RegWord} (h : v.extractLsb' 2 14 = 0) : v.toNat ≤ 3 := by
  have hv : (v.extractLsb' 2 14).toNat = 0 := congrArg BitVec.toNat h
  rw [BitVec.extractLsb'_toNat, Nat.shiftRight_eq_div_pow] at hv
  have := v.isLt
  omega

/-- A flag the block raises, added to the flags STATUS reads, sets no bit outside the flags (R28). -/
theorem setErrorFlag_outside_flags {e : ErrorKind} (he : e ≠ .decodeFailure) (s : State) :
    setErrorFlag (s.reg .status) e &&& 0xFFC5 = 0 := by
  have hread : s.reg .status &&& 0xFFC5 = 0 :=
    calc (s.regs.held .status &&& 0x003A) &&& 0xFFC5
        = s.regs.held .status &&& (0x003A &&& 0xFFC5) := BitVec.and_assoc ..
      _ = 0 := BitVec.and_zero
  have hflag : (1 : RegWord) <<< (errorCode e).toNat &&& 0xFFC5 = 0 := by
    cases e with
    | decodeFailure => exact absurd rfl he
    | invalidDimension | illegalCommand | factorUnderflow | capacityExceeded => decide
  rw [setErrorFlag, BitVec.and_or_distrib_right, hread, hflag]
  decide

/-! ### The fields of R41 item 5 -/

/-- A write WRREG permits keeps the fields inside their used bits (R91). -/
theorem FieldsOk.setReg_accepted {s : State} {r : Reg} {v : RegWord} (ha : regAccepts r v = true)
    (h : FieldsOk s) : FieldsOk (s.setReg r v) := by
  obtain ⟨hthresh, hctrl, hstatus, hbpol⟩ := h
  cases r with
  | srcw | srch | maxw | maxh | maxf => exact ⟨hthresh, hctrl, hstatus, hbpol⟩
  | thresh => exact ⟨of_decide_eq_true ha, hctrl, hstatus, hbpol⟩
  | ctrl =>
    exact ⟨hthresh, toNat_le_three_of_extractLsb'_eq_zero (of_decide_eq_true ha), hstatus, hbpol⟩
  | status | bw | bh | rowbytes | bpol | outw | outh | factor => cases ha

/-- A value of flags only, written to STATUS, keeps the fields inside their used bits. -/
theorem FieldsOk.setReg_status {s : State} {v : RegWord} (hv : v &&& 0xFFC5 = 0) (h : FieldsOk s) :
    FieldsOk (s.setReg .status v) := by
  obtain ⟨hthresh, hctrl, -, hbpol⟩ := h
  exact ⟨hthresh, hctrl, hv, hbpol⟩

/-! ### The invariant under the operations on the state -/

/-- The invariant speaks of the registers, the two stores and the capacities alone. -/
theorem BlockInv.congr {s t : State} (hregs : t.regs = s.regs) (hbits : t.bits = s.bits) (hdst : t.dst = s.dst)
    (hparams : t.params = s.params) (h : BlockInv s) : BlockInv t := by
  simpa only [BlockInv, ScaledOk, FieldsOk, Memory.wf, State.num, State.reg, hregs, hbits, hdst, hparams] using h

theorem BlockInv.fieldsOk {s : State} (h : BlockInv s) : FieldsOk s := by
  obtain ⟨-, -, -, -, hfields, -⟩ := h
  exact hfields

/-- The registers that describe the contents of the two stores (R29, R30, R32, R33). -/
abbrev storeGeometry : List Reg := [.bw, .bh, .rowbytes, .outw, .outh, .factor]

/-- WRREG writes no register that describes a store (R91). -/
theorem regAccepts_not_mem_storeGeometry {r : Reg} {v : RegWord} (ha : regAccepts r v = true) :
    r ∉ storeGeometry := by
  cases r with
  | srcw | srch | maxw | maxh | maxf | thresh | ctrl => decide
  | status | bw | bh | rowbytes | bpol | outw | outh | factor => cases ha

/-- A write of a register that describes no store keeps the invariant if it keeps item 5 of R41. -/
theorem BlockInv.setReg {s : State} {r : Reg} {v : RegWord} (hr : r ∉ storeGeometry)
    (hfields : FieldsOk (s.setReg r v)) (h : BlockInv s) : BlockInv (s.setReg r v) := by
  obtain ⟨hrow, hbits, hdst, hscaled, -, hwf⟩ := h
  simp only [storeGeometry, List.mem_cons, List.not_mem_nil, or_false, not_or, ← ne_eq] at hr
  obtain ⟨hbw, hbh, hrb, houtw, houth, hfactor⟩ := hr
  have hheld : (s.setReg r v).regs.rowbytes = s.regs.rowbytes :=
    (RegFile.held_write s.regs r .rowbytes v).trans (if_neg hrb.symm)
  refine ⟨?_, ?_, ?_, ?_, hfields, State.setReg_wf v (by simp [*]) hwf⟩
  · rwa [hheld, State.num_setReg_other s v hbw.symm]
  · rwa [State.num_setReg_other s v hbw.symm, State.num_setReg_other s v hbh.symm]
  · rwa [State.num_setReg_other s v houtw.symm, State.num_setReg_other s v houth.symm]
  · rwa [ScaledOk, State.num_setReg_other s v houtw.symm, State.num_setReg_other s v houth.symm,
      State.num_setReg_other s v hfactor.symm]

/-- The block after a reset meets the invariant, whatever its capacities (R42). -/
theorem BlockInv.resetBlock (s : State) : BlockInv s.resetBlock := by
  have hrow : State.reset.regs.rowbytes.toNat = ceil8 (State.reset.num .bw) := by decide
  have hbits : s.resetBlock.num .bw * s.resetBlock.num .bh = 0 := by
    rw [State.num_resetBlock, State.num_resetBlock]; decide
  have hdst : s.resetBlock.num .outw * s.resetBlock.num .outh = 0 := by
    rw [State.num_resetBlock, State.num_resetBlock]; decide
  have hscaled : ScaledOk State.reset := by decide
  have hfields : FieldsOk State.reset := by decide
  exact ⟨hrow, hbits.le.trans (Nat.zero_le _), hdst.le.trans (Nat.zero_le _), hscaled, hfields, s.resetBlock_wf⟩

/-- A scaled buffer that fits its registers and the capacity meets the invariant (R105, R106). -/
theorem BlockInv.putScaled {s : State} {f w h : Nat} (pix : Nat → Nat → Nat → Pixel) (hf : 1 ≤ f) (hw : 1 ≤ w)
    (hh : 1 ≤ h) (hf' : f < 65536) (hw' : f * w < 65536) (hh' : f * h < 65536)
    (hcap : (f * w) * (f * h) ≤ s.params.dstCap) (hs : BlockInv s) : BlockInv (s.putScaled f w h pix) := by
  obtain ⟨hrow, hbits, -, -, hfields, hwf, -⟩ := hs
  obtain ⟨houtw, houth, hfactor, -, hdst, -⟩ := putScaled_spec s pix hf' hw' hh'
  refine ⟨hrow, hbits, ?_, .inr ?_, hfields, hwf, ?_⟩
  · rw [houtw, houth]; exact hcap
  · rw [houtw, houth, hfactor]
    exact ⟨hf, Nat.mul_pos hf hw, Nat.mul_pos hf hh, Nat.mul_mod_right f w, Nat.mul_mod_right f h⟩
  · rw [houtw, houth, hdst]; exact rowMajor_length ..

/-- A raster that fits the capacity meets the invariant (R125). -/
theorem BlockInv.putRaster {s : State} (hcap : s.num .srcw * s.num .srch ≤ s.params.bitsCap)
    (h : BlockInv s) : BlockInv s.putRaster := by
  obtain ⟨-, -, hdst, hscaled, ⟨hthresh, hctrl, hstatus, -⟩, -, hwf⟩ := h
  obtain ⟨hregbw, hregbh, -, -, -, hbits, -⟩ := putRaster_spec s
  have hbw : s.putRaster.num .bw = s.num .srcw := congrArg BitVec.toNat hregbw
  have hbh : s.putRaster.num .bh = s.num .srch := congrArg BitVec.toNat hregbh
  have hbpol : (if s.ctrlPol then 1 else 0 : RegWord).toNat ≤ 1 := by cases s.ctrlPol <;> decide
  refine ⟨?_, ?_, hdst, hscaled, ⟨hthresh, hctrl, hstatus, hbpol⟩, ?_, hwf⟩
  · have hfits : ceil8 (s.num .srcw) < 65536 := by
      have := s.num_lt .srcw
      unfold ceil8; omega
    rw [hbw]; exact Nat.mod_eq_of_lt hfits
  · rw [hbw, hbh]; exact hcap
  · rw [hbw, hbh, hbits]; exact rowMajor_length ..

/-! ### The invariant under the completions and the commands -/

theorem complete_keeps_blockInv {data : RegWord} {bytes : List Byte} {s t : State}
    (ht : complete data bytes s = .next t) (h : BlockInv s) : BlockInv t := by
  rw [complete_next ht]; exact .congr rfl rfl rfl rfl h

theorem raise_keeps_blockInv {e : ErrorKind} (he : e ≠ .decodeFailure) {s t : State}
    (ht : raise e s = .next t) (h : BlockInv s) : BlockInv t := by
  have hflag := setErrorFlag_outside_flags he s
  have hset := BlockInv.setReg (r := .status) (by decide) (h.fieldsOk.setReg_status hflag) h
  rw [raise_next ht]
  exact .congr rfl rfl rfl rfl hset

theorem execWrreg_keeps_blockInv {reg : BitVec 8} {imm : RegWord} {s t : State}
    (ht : execWrreg reg imm s = .next t) (h : BlockInv s) : BlockInv t := by
  obtain ⟨herr, -⟩ | ⟨r, -, ha, hok⟩ := execWrreg_cases reg imm s
  · exact raise_keeps_blockInv (by decide) (herr ▸ ht) h
  · have hset : BlockInv (s.setReg r imm) :=
      .setReg (regAccepts_not_mem_storeGeometry ha) (h.fieldsOk.setReg_accepted ha) h
    exact complete_keeps_blockInv (hok ▸ ht) hset

theorem execRdreg_keeps_blockInv {reg : BitVec 8} {s t : State} (ht : execRdreg reg s = .next t)
    (h : BlockInv s) : BlockInv t := by
  obtain ⟨herr, -⟩ | ⟨r, -, hok⟩ := execRdreg_cases reg s
  · exact raise_keeps_blockInv (by decide) (herr ▸ ht) h
  · exact complete_keeps_blockInv (hok ▸ ht) h

theorem execClrerr_keeps_blockInv {s t : State} (ht : execClrerr s = .next t) (h : BlockInv s) :
    BlockInv t :=
  complete_keeps_blockInv ht (.setReg (by decide) (h.fieldsOk.setReg_status (by decide)) h)

theorem scale_keeps_blockInv {w h : Nat} {pix : Nat → Nat → Nat → Pixel} {s t : State}
    (ht : scale w h pix s = .next t) (hs : BlockInv s) : BlockInv t := by
  obtain ⟨-, he⟩ | ⟨-, -, he⟩ | ⟨-, -, -, he⟩ | ⟨hnz, hf, hcap, hok⟩ := scale_cases w h pix s
  · exact raise_keeps_blockInv (by decide) (he ▸ ht) hs
  · exact raise_keeps_blockInv (by decide) (he ▸ ht) hs
  · exact raise_keeps_blockInv (by decide) (he ▸ ht) hs
  · obtain ⟨hw', hh', hf'⟩ := scaleFactor_mul_le s w h
    have := s.num_lt .maxw
    have := s.num_lt .maxh
    have := s.num_lt .maxf
    have hput : BlockInv (s.putScaled (scaleFactor s w h) w h pix) :=
      .putScaled pix (by omega) (by omega) (by omega) (by omega) (by omega) (by omega) hcap hs
    exact complete_keeps_blockInv (hok ▸ ht) hput

theorem execTobin_keeps_blockInv {s t : State} (ht : execTobin s = .next t) (h : BlockInv s) :
    BlockInv t := by
  obtain ⟨-, herr⟩ | ⟨hcap, hok⟩ := execTobin_cases s
  · exact raise_keeps_blockInv (by decide) (herr ▸ ht) h
  · exact complete_keeps_blockInv (hok ▸ ht) (.putRaster hcap h)

/-- Every command keeps the relations of R41. -/
theorem exec_keeps_blockInv {i : Instr} {s t : State} (ht : exec i s = .next t) (h : BlockInv s) :
    BlockInv t := by
  cases i with
  | nop | pack | encode => exact complete_keeps_blockInv ht h
  | wrreg reg imm => exact execWrreg_keeps_blockInv ht h
  | rdreg reg => exact execRdreg_keeps_blockInv ht h
  | clrerr => exact execClrerr_keeps_blockInv ht h
  | sreset => exact complete_keeps_blockInv ht (.resetBlock s)
  | scalep | scaleb => exact scale_keeps_blockInv ht h
  | tobin => exact execTobin_keeps_blockInv ht h

/-! ### The invariant under the inputs -/

theorem runWord_keeps_blockInv {c : CmdWord} {s t : State} (ht : runWord c s = .next t) (h : BlockInv s) :
    BlockInv t := by
  obtain ⟨i, -, hrun⟩ | ⟨why, -, hrun⟩ := runWord_cases c s
  · exact exec_keeps_blockInv (hrun ▸ ht) h
  · exact raise_keeps_blockInv (by decide) (hrun ▸ ht) h

/-- Every input keeps the relations of R41; a hardware reset establishes them. -/
theorem serve_keeps_blockInv {e : Event} {s t : State} (ht : serve e s = .next t) (h : BlockInv s) :
    BlockInv t := by
  cases e with
  | command c => exact runWord_keeps_blockInv ht h
  | hardwareReset => cases ht; exact .resetBlock s
  | resetDuring c => cases ht; exact .congr rfl rfl rfl rfl (.resetBlock s)
  | offerSource | displayRead | sinkTake => cases ht; exact .congr rfl rfl rfl rfl h

/-- Settles O48: an idle step changes nothing, and any other step serves one input. -/
theorem invariantIsKeptByEveryStep : Obligations.InvariantIsKeptByEveryStep := by
  intro s t h ht
  obtain ⟨-, rfl⟩ | ⟨e, rest, -, hserve⟩ := step_cases ht
  · exact h
  · exact serve_keeps_blockInv hserve (.congr rfl rfl rfl rfl h)

end Sys2Proof.Machine
end

section
/-! PROOFS. The values every reset gives (R42): power-on, SRESET and hardware reset (O22). -/

namespace Sys2Proof.Machine

/-- Every register but the four with a listed value of their own is 0 after reset (R42). -/
theorem num_reset_of_not_listed {r : Reg} (hr : r ∉ [Reg.maxw, .maxh, .maxf, .thresh]) :
    State.reset.num r = 0 := by
  cases r with
  | maxw | maxh | maxf | thresh => exact absurd (by decide) hr
  | srcw | srch | ctrl | status | bw | bh | rowbytes | bpol | outw | outh | factor => rfl

/-- What power-on, SRESET and hardware reset have in common: the register file of R42, empty stores, nothing
emitted; and the two resets of a running block keep what was emitted before (R187). -/
theorem reset_frame {s t : State}
    (ht : t = State.reset ∨ exec .sreset s = .next t ∨ serve .hardwareReset s = .next t) :
    t.regs = RegFile.reset ∧ t.bits = [] ∧ t.dst = [] ∧ t.output = [] ∧ (t ≠ State.reset → t.out = s.out) := by
  obtain rfl | hsreset | hhardware := ht
  · exact ⟨rfl, rfl, rfl, rfl, fun hne => absurd rfl hne⟩
  · rw [complete_next hsreset]
    exact ⟨rfl, rfl, rfl, rfl, fun _ => List.append_nil s.out⟩
  · cases hhardware
    exact ⟨rfl, rfl, rfl, rfl, fun _ => rfl⟩

/-- Settles O22: the three resets give one register file and one pair of stores. -/
theorem everyResetGivesTheListedValues : Obligations.EveryResetGivesTheListedValues := by
  intro s t ht
  obtain ⟨hregs, hbits, hdst, houtput, hout⟩ := reset_frame ht
  have hnum (r : Reg) : t.num r = State.reset.num r := congrArg (fun f => (f.read r).toNat) hregs
  exact ⟨hnum .maxw, hnum .maxh, hnum .maxf, hnum .thresh,
    fun r hr => (hnum r).trans (num_reset_of_not_listed hr), hbits, hdst, houtput, hout⟩

end Sys2Proof.Machine
end

section
/-! PROOFS. The decoder by format (R72, R74, R75), what it leaves to execution (R163), and the words of the spec
(O2, O6). -/

namespace Sys2Proof.Machine

/-! ### The decoder by the opcode of a word -/

/-- The opcodes of format Z and their commands (R74). -/
def formatZRows : List (Nat × Instr) :=
  [(0x00, .nop), (0x03, .clrerr), (0x04, .sreset), (0x10, .scalep), (0x11, .scaleb), (0x20, .tobin),
   (0x30, .pack), (0x31, .encode)]

/-- The ten opcodes of R74. -/
def knownOpcodes : List Nat := [0x00, 0x01, 0x02, 0x03, 0x04, 0x10, 0x11, 0x20, 0x30, 0x31]

theorem opField_eq_ofNat {c : CmdWord} {n : Nat} (h : (opField c).toNat = n) : opField c = BitVec.ofNat 8 n := by
  rw [← h, BitVec.ofNat_toNat, BitVec.setWidth_eq]

/-- A format-Z opcode sends the word to the decoder of its format with its command. -/
theorem decode_of_formatZ {c : CmdWord} {p : Nat × Instr} (hp : p ∈ formatZRows) (hop : (opField c).toNat = p.1) :
    decode c = decodeZ p.2 c := by
  have hop := opField_eq_ofNat hop
  simp only [formatZRows, List.mem_cons, List.not_mem_nil, or_false] at hp
  rcases hp with rfl | rfl | rfl | rfl | rfl | rfl | rfl | rfl <;> simp [decode, hop]

theorem decode_of_rdreg_opcode {c : CmdWord} (hop : (opField c).toNat = 0x02) : decode c = decodeR c := by
  simp [decode, opField_eq_ofNat hop]

theorem decode_of_wrreg_opcode {c : CmdWord} (hop : (opField c).toNat = 0x01) :
    decode c = .command (.wrreg (regField c) (immField c)) := by
  simp [decode, opField_eq_ofNat hop]

/-- An opcode outside the opcode map makes the word illegal, whatever its operands (R76 item 1). -/
theorem decode_of_unknown_opcode {c : CmdWord} (hop : (opField c).toNat ∉ knownOpcodes) :
    decode c = .illegal (.reservedOpcode (opField c)) := by
  have hne {n : BitVec 8} (hn : n.toNat ∈ knownOpcodes) : opField c ≠ n := fun h => hop (h ▸ hn)
  unfold decode
  iterate 10 rw [if_neg (hne (by decide))]

/-- A format-Z word is its command exactly when its 24 operand bits are zero. -/
theorem decodeZ_spec (i : Instr) (c : CmdWord) :
    if regField c ≠ 0 ∨ immField c ≠ 0 then ∃ why, decodeZ i c = .illegal why
    else decodeZ i c = .command i := by
  unfold decodeZ
  split_ifs
  · exact ⟨_, rfl⟩
  · rfl

/-- A format-R word is RDREG exactly when its immediate is zero. -/
theorem decodeR_spec (c : CmdWord) :
    if immField c ≠ 0 then ∃ why, decodeR c = .illegal why else decodeR c = .command (.rdreg (regField c)) := by
  unfold decodeR
  split_ifs
  · exact ⟨_, rfl⟩
  · rfl

/-- The word of a command decodes to that command, with every operand at every value (R72, R74). -/
theorem decode_encode (i : Instr) : decode (encode i) = .command i := by
  cases i with
  | wrreg reg imm | rdreg reg => simp [encode, decode]
  | nop | clrerr | sreset | scalep | scaleb | tobin | pack | encode => rfl

/-! ### Commands that decode and are not permitted -/

/-- A register that takes a value makes the WRREG of that value permitted (R76 items 4 to 7, R91). -/
theorem wellFormed_wrreg_of_regAccepts {r : Reg} {imm : RegWord} (h : regAccepts r imm = true) :
    (Instr.wrreg (regNumber r) imm).WellFormed := by
  cases r with
  | srcw | srch | maxw | maxh | maxf => rfl
  | thresh | ctrl => simpa [Instr.WellFormed, Instr.wellFormed, regAccepts, regNumber] using h
  | status | bw | bh | rowbytes | bpol | outw | outh | factor => cases h

theorem wellFormed_rdreg_regNumber (r : Reg) : (Instr.rdreg (regNumber r)).WellFormed := by cases r <;> rfl

/-- A command that is not permitted is the error completion of IllegalCommand when it executes (R163). -/
theorem exec_fails_of_not_wellFormed {i : Instr} (hi : i.wellFormed = false) (s : State) :
    FailsWith .illegalCommand i s := by
  have hfail {j : Instr} (hj : exec j s = raise .illegalCommand s) : FailsWith .illegalCommand j s := by
    rw [FailsWith, hj]
    exact raise_completes (by decide) s
  cases i with
  | wrreg reg imm =>
    obtain ⟨herr, -⟩ | ⟨r, rfl, haccepts, -⟩ := execWrreg_cases reg imm s
    · exact hfail herr
    · rw [wellFormed_wrreg_of_regAccepts haccepts] at hi
      cases hi
  | rdreg reg =>
    obtain ⟨herr, -⟩ | ⟨r, rfl, -⟩ := execRdreg_cases reg s
    · exact hfail herr
    · rw [wellFormed_rdreg_regNumber r] at hi
      cases hi
  | nop | clrerr | sreset | scalep | scaleb | tobin | pack | encode => cases hi

/-- Settles O2, format by format; what is left to execution depends on the command alone. -/
theorem decoderFollowsTheOpcodeMap : Obligations.DecoderFollowsTheOpcodeMap := by
  intro c
  refine ⟨fun p hp hop => ?_, fun hop => ?_, decode_of_wrreg_opcode,
    fun hop => ⟨_, decode_of_unknown_opcode hop⟩, fun i s _ hi => exec_fails_of_not_wellFormed hi s⟩
  · rw [decode_of_formatZ hp hop]
    exact decodeZ_spec p.2 c
  · rw [decode_of_rdreg_opcode hop]
    exact decodeR_spec c

/-- Settles O6: eleven of the words are the words of the commands named, and the other three are closed cases of
R76 items 1 to 3. -/
theorem wordsOfTheSpecDecode : Obligations.WordsOfTheSpecDecode :=
  ⟨decode_encode .nop, decode_encode (.wrreg 0 320), decode_encode (.wrreg 6 3), decode_encode (.rdreg 3),
    decode_encode .clrerr, decode_encode .sreset, decode_encode .scalep, decode_encode .scaleb,
    decode_encode .tobin, decode_encode .pack, decode_encode .encode, rfl, rfl, rfl⟩

end Sys2Proof.Machine
end

section
/-! PROOFS. The one response of every command word (R77, O10), and the words and responses of the pseudo-commands
(R79, O5). -/

namespace Sys2Proof.Machine

/-! ### Response words -/

/-- The response data of a word that succeeds: the value of the register RDREG names, zero for every other command
(R77). -/
def answerOf (d : Decoded) (s : State) : RegWord :=
  match d with
  | .command (.rdreg reg) => (regOfNumber reg).elim 0 s.reg
  | _ => 0

/-- A response word of the form R77 gives, to a word that answers `answer` when it succeeds. -/
structure IsResponse (answer : RegWord) (r : RespWord) : Prop where
  reserved : r.extractLsb' 16 8 = 0
  code : codeField r ∈ ([0, 1, 3, 4, 5] : List (BitVec 8))
  data_of_error : codeField r ≠ 0 → r.extractLsb' 0 16 = 0
  data_of_ok : codeField r = 0 → r.extractLsb' 0 16 = answer

theorem codeField_responseWord (code : BitVec 8) (data : RegWord) : codeField (responseWord code data) = code :=
  (extract_append code 0 data).1

theorem reserved_responseWord (code : BitVec 8) (data : RegWord) :
    (responseWord code data).extractLsb' 16 8 = 0 := (extract_append code 0 data).2.1

theorem data_responseWord (code : BitVec 8) (data : RegWord) :
    (responseWord code data).extractLsb' 0 16 = data := (extract_append code 0 data).2.2

theorem isResponse_ok (answer : RegWord) : IsResponse answer (responseWord okCode answer) where
  reserved := reserved_responseWord _ _
  code := by rw [codeField_responseWord]; decide
  data_of_error h := absurd (codeField_responseWord _ _) h
  data_of_ok _ := data_responseWord _ _

theorem isResponse_error {e : ErrorKind} (he : e ≠ .decodeFailure) (answer : RegWord) :
    IsResponse answer (responseWord (errorCode e) 0) where
  reserved := reserved_responseWord _ _
  code := by
    rw [codeField_responseWord]
    cases e with
    | decodeFailure => exact absurd rfl he
    | invalidDimension | illegalCommand | factorUnderflow | capacityExceeded => decide
  data_of_error _ := data_responseWord _ _
  data_of_ok h := by rw [codeField_responseWord] at h; cases e <;> cases h

/-! ### One response to every command word -/

/-- The data of a command that succeeds are its answer. -/
theorem Succeeds.data_eq_answerOf {i : Instr} {s u : State} {data : RegWord} {bytes : List Byte}
    (h : Succeeds i s u data bytes) : data = answerOf (.command i) s := by
  cases i with
  | rdreg reg =>
    obtain ⟨r, hr, hdata⟩ := h.data_reg reg rfl
    simp [answerOf, regOfNumber_eq_some.2 hr, hdata]
  | nop | wrreg | clrerr | sreset | scalep | scaleb | tobin | pack | encode => exact h.data_zero nofun

/-- Every command ends in a next state with one response more, of the form R77 gives. -/
theorem exec_responds (i : Instr) (s : State) :
    ∃ t r, exec i s = .next t ∧ t.responses = s.responses ++ [r] ∧ IsResponse (answerOf (.command i) s) r := by
  obtain ⟨e, he, herr⟩ | ⟨u, data, bytes, hok, hsucc⟩ := exec_cases i s
  · exact ⟨_, _, herr, rfl, isResponse_error he _⟩
  · obtain rfl := hsucc.data_eq_answerOf
    exact ⟨_, _, hok, congrArg (· ++ _) hsucc.responses, isResponse_ok _⟩

/-- Every command word, legal or not, ends in a next state with one response more, of the form R77 gives. -/
theorem runWord_responds (c : CmdWord) (s : State) :
    ∃ t r, runWord c s = .next t ∧ t.responses = s.responses ++ [r] ∧ IsResponse (answerOf (decode c) s) r := by
  obtain ⟨i, hdec, hrun⟩ | ⟨why, -, hrun⟩ := runWord_cases c s
  · rw [hrun, hdec]
    exact exec_responds i s
  · exact ⟨_, _, hrun, rfl, isResponse_error (by decide) _⟩

/-- Settles O10: the four properties of the one response word. -/
theorem everyWordGetsOneResponse : Obligations.EveryWordGetsOneResponse := by
  intro c s
  obtain ⟨t, r, hnext, hresponses, hr⟩ := runWord_responds c s
  refine ⟨t, r, hnext, hresponses, hr.reserved, hr.code, hr.data_of_error, fun hok => (hr.data_of_ok hok).trans ?_⟩
  cases decode c with
  | illegal why => rfl
  | command i =>
    cases i with
    | rdreg reg => simp only [answerOf]; cases regOfNumber reg <;> rfl
    | nop | wrreg | clrerr | sreset | scalep | scaleb | tobin | pack | encode => rfl

/-! ### Pseudo-commands -/

/-- A command word as the sum of its fields, each at its place (R71, R78). -/
theorem commandWord_eq_add (op reg : BitVec 8) (imm : RegWord) :
    commandWord op reg imm = BitVec.ofNat 32 (op.toNat * 2 ^ 24 + reg.toNat * 2 ^ 16) + imm.zeroExtend 32 := by
  apply BitVec.eq_of_toNat_eq
  have hcat : (commandWord op reg imm).toNat = (op.toNat * 2 ^ 8 + reg.toNat) * 2 ^ 16 + imm.toNat := by
    simp only [commandWord, BitVec.toNat_append]
    rw [← Nat.shiftLeft_add_eq_or_of_lt reg.isLt, ← Nat.shiftLeft_add_eq_or_of_lt imm.isLt,
      Nat.shiftLeft_eq, Nat.shiftLeft_eq]
  rw [hcat, BitVec.toNat_add, BitVec.toNat_ofNat, BitVec.toNat_setWidth]
  omega

/-- Settles O5: the words by the sum of their fields, the responses command by command. -/
theorem pseudoCommandsExpandToTheirWords : Obligations.PseudoCommandsExpandToTheirWords := by
  refine ⟨fun w h => ?_, fun mw mh mf => ?_, rfl, rfl, fun _ i s _ => ?_⟩
  · simp only [expandPseudo, List.map_cons, List.map_nil, encode, commandWord_eq_add]
    rfl
  · simp only [expandPseudo, List.map_cons, List.map_nil, encode, commandWord_eq_add]
    rfl
  · obtain ⟨t, r, hnext, hresponses, -⟩ := exec_responds i s
    exact ⟨t, r, hnext, hresponses⟩

end Sys2Proof.Machine
end

section
/-! PROOFS. The configuration and control commands (spec/40_config_commands.md): NOP, WRREG, RDREG, CLRERR and
SRESET, and the malformed words of their opcodes (O17 to O21). -/

namespace Sys2Proof.Machine

/-! ### Malformed words -/

/-- A word the decoder calls illegal is the error completion of IllegalCommand when it runs (R76, R163). -/
theorem runWord_fails_of_illegal {c : CmdWord} {why : DecodeError} (h : decode c = .illegal why) (s : State) :
    ∃ t, runWord c s = .next t ∧ ErrorCompletion .illegalCommand s t := by
  rw [runWord, h]
  exact raise_completes (by decide) s

/-- The 24 operand bits of a word are its register field and its immediate (R71). -/
theorem operandBits_eq_append (c : CmdWord) : c.extractLsb' 0 24 = regField c ++ immField c :=
  (BitVec.extractLsb'_append_extractLsb'_eq_extractLsb' (len₁ := 16) (len₂ := 8) rfl).symm

/-- A format-Z word with an operand bit set is illegal (R76 item 2). -/
theorem formatZ_fails_of_operand {op : BitVec 8} (i : Instr) (hrow : (op.toNat, i) ∈ formatZRows) {c : CmdWord}
    (hop : opField c = op) (hoperand : c.extractLsb' 0 24 ≠ 0) (s : State) :
    ∃ t, runWord c s = .next t ∧ ErrorCompletion .illegalCommand s t := by
  have hfields : regField c ≠ 0 ∨ immField c ≠ 0 := by
    by_contra! hzero
    obtain ⟨hreg, himm⟩ := hzero
    rw [operandBits_eq_append, hreg, himm] at hoperand
    exact hoperand rfl
  have hdecode := decodeZ_spec i c
  rw [if_pos hfields, ← decode_of_formatZ hrow (congrArg BitVec.toNat hop)] at hdecode
  obtain ⟨why, hwhy⟩ := hdecode
  exact runWord_fails_of_illegal hwhy s

/-- An RDREG word with an immediate bit set is illegal (R76 item 3). -/
theorem rdreg_fails_of_imm {c : CmdWord} (hop : opField c = 0x02) (himm : immField c ≠ 0) (s : State) :
    ∃ t, runWord c s = .next t ∧ ErrorCompletion .illegalCommand s t := by
  have hdecode := decodeR_spec c
  rw [if_pos himm, ← decode_of_rdreg_opcode (congrArg BitVec.toNat hop)] at hdecode
  obtain ⟨why, hwhy⟩ := hdecode
  exact runWord_fails_of_illegal hwhy s

/-! ### The success completions of the control commands -/

/-- A success completion over the old state answers and changes no register and no store. -/
theorem complete_self (data : RegWord) (bytes : List Byte) (s : State) :
    ∃ t, complete data bytes s = .next t ∧ Answered data bytes s t ∧ t.regs = s.regs ∧ SameStores s t := by
  obtain ⟨t, hnext, rfl, hanswered⟩ := complete_answers data bytes (s := s) rfl rfl (.refl s)
  exact ⟨_, hnext, hanswered, rfl, rfl, rfl⟩

/-- A success completion over one register write changes that register alone. -/
theorem complete_setReg (s : State) (r : Reg) (v : RegWord) :
    ∃ t, complete 0 [] (s.setReg r v) = .next t ∧ t.reg r = v &&& usedBits r ∧ SameRegsBut [r] s t ∧
      SameStores s t ∧ Answered 0 [] s t := by
  obtain ⟨t, hnext, rfl, hanswered⟩ :=
    complete_answers 0 [] (s := s) (u := s.setReg r v) rfl rfl ⟨rfl, rfl, rfl, rfl, rfl⟩
  have hother (q : Reg) (hq : q ∉ [r]) : (s.setReg r v).reg q = s.reg q :=
    State.reg_setReg_other s v (List.ne_of_not_mem_cons hq)
  exact ⟨_, hnext, State.reg_setReg_same s r v, hother, ⟨rfl, rfl⟩, hanswered⟩

/-! ### Used bits -/

/-- A value below `2^k` has no bit outside the mask of the `k` low bits. -/
theorem and_lowMask_of_lt {v mask : RegWord} {k : Nat} (hmask : mask.toNat = 2 ^ k - 1) (hv : v.toNat < 2 ^ k) :
    v &&& mask = v := by
  apply BitVec.eq_of_toNat_eq
  rw [BitVec.toNat_and, hmask, Nat.and_two_pow_sub_one_eq_mod, Nat.mod_eq_of_lt hv]

/-- A register reads no more than its used bits (R22). -/
theorem State.num_le_usedBits (s : State) (r : Reg) : s.num r ≤ (usedBits r).toNat := by
  rw [State.num, State.reg, RegFile.read, BitVec.toNat_and]
  exact Nat.and_le_right

/-- A value WRREG may write uses only the register's used bits, so it reads back whole (R22, R91). -/
theorem and_usedBits_of_regAccepts {r : Reg} {imm : RegWord} (h : regAccepts r imm = true) :
    imm &&& usedBits r = imm := by
  cases r with
  | srcw | srch | maxw | maxh | maxf => exact and_all_used imm
  | thresh =>
    have himm : imm.toNat ≤ 255 := of_decide_eq_true h
    exact and_lowMask_of_lt (k := 8) rfl (by omega)
  | ctrl =>
    have himm : imm.toNat ≤ 3 := toNat_le_three_of_extractLsb'_eq_zero (of_decide_eq_true h)
    exact and_lowMask_of_lt (k := 2) rfl (by omega)
  | status | bw | bh | rowbytes | bpol | outw | outh | factor => cases h

/-! ### WRREG -/

theorem exists_regNumber_eq {n : BitVec 8} (h : n.toNat < 15) : ∃ r, regNumber r = n := by
  cases hr : regOfNumber n with
  | none => exact absurd (regOfNumber_eq_none.1 hr) (by omega)
  | some r => exact ⟨r, regOfNumber_eq_some.1 hr⟩

/-- The WRREG commands that are not permitted are the three errors of R91. -/
theorem wellFormed_wrreg_eq_false_iff {reg : BitVec 8} {imm : RegWord} :
    (Instr.wrreg reg imm).wellFormed = false ↔
      6 < reg.toNat ∨ (reg.toNat = 5 ∧ 255 < imm.toNat) ∨ (reg.toNat = 6 ∧ imm.extractLsb' 2 14 ≠ 0) := by
  simp [Instr.wellFormed, imp_iff_not_or, or_assoc]

/-- A permitted WRREG names a register that takes the value (R91). -/
theorem regAccepts_of_wellFormed {r : Reg} {imm : RegWord} (h : (Instr.wrreg (regNumber r) imm).WellFormed) :
    regAccepts r imm = true := by
  cases r with
  | srcw | srch | maxw | maxh | maxf => rfl
  | thresh | ctrl => simpa [Instr.WellFormed, Instr.wellFormed, regAccepts, regNumber] using h
  | status | bw | bh | rowbytes | bpol | outw | outh | factor => cases h

/-- A permitted WRREG is the write of the register it names (R91). -/
theorem execWrreg_of_wellFormed {reg : BitVec 8} {imm : RegWord} (h : (Instr.wrreg reg imm).WellFormed)
    (s : State) :
    ∃ r, regNumber r = reg ∧ regAccepts r imm = true ∧
      execWrreg reg imm s = complete 0 [] (s.setReg r imm) := by
  obtain ⟨-, hrefuses⟩ | hwrites := execWrreg_cases reg imm s
  · have hreg : ¬ 6 < reg.toNat := fun hlt =>
      Bool.eq_false_iff.1 (wellFormed_wrreg_eq_false_iff.2 (.inl hlt)) h
    obtain ⟨r, rfl⟩ := exists_regNumber_eq (n := reg) (by omega)
    exact absurd (regAccepts_of_wellFormed h) (Bool.eq_false_iff.1 (hrefuses r rfl))
  · exact hwrites

/-- Settles O18: the three errors are the WRREG commands that are not permitted, and every other one is the write of
the register it names. -/
theorem wrregWritesTheNamedRegisterOrFails : Obligations.WrregWritesTheNamedRegisterOrFails := by
  refine ⟨fun reg imm => decode_encode (.wrreg reg imm), fun reg imm s => ?_⟩
  split_ifs with hbad
  · exact exec_fails_of_not_wellFormed (wellFormed_wrreg_eq_false_iff.2 hbad) s
  · have hwell : (Instr.wrreg reg imm).WellFormed :=
      Bool.eq_true_of_not_eq_false (mt wellFormed_wrreg_eq_false_iff.1 hbad)
    obtain ⟨r, hr, haccepts, hexec⟩ := execWrreg_of_wellFormed hwell s
    obtain ⟨t, hnext, hreg, hframe⟩ := complete_setReg s r imm
    exact ⟨r, t, hr, hexec.trans hnext, hreg.trans (and_usedBits_of_regAccepts haccepts), hframe⟩

/-! ### RDREG -/

/-- RDREG of a number that names no register fails; of any other it answers the register and changes nothing
(R92). -/
theorem execRdreg_spec (reg : BitVec 8) (s : State) :
    if 14 < reg.toNat then FailsWith .illegalCommand (.rdreg reg) s
    else ∃ r t, regNumber r = reg ∧ exec (.rdreg reg) s = .next t ∧ Answered (s.reg r) [] s t ∧
      t.regs = s.regs ∧ SameStores s t := by
  split_ifs with hbad
  · have hnot : (Instr.rdreg reg).wellFormed = false := decide_eq_false (by omega)
    exact exec_fails_of_not_wellFormed hnot s
  · obtain ⟨-, hnone⟩ | ⟨r, hr, hexec⟩ := execRdreg_cases reg s
    · omega
    · obtain ⟨t, hnext, hframe⟩ := complete_self (s.reg r) [] s
      exact ⟨r, t, hr, hexec.trans hnext, hframe⟩

/-- Under the invariant the fourteen used bits of ROWBYTES hold the whole packed row width (R30, R41). -/
theorem num_rowbytes_of_blockInv {s : State} (h : BlockInv s) : s.num .rowbytes = (s.num .bw + 7) / 8 := by
  obtain ⟨hheld, -⟩ := h
  unfold ceil8 at hheld
  have hfits : s.regs.rowbytes.toNat < 2 ^ 14 := by
    have := s.num_lt .bw
    omega
  have hread : s.reg .rowbytes = s.regs.rowbytes := and_lowMask_of_lt (k := 14) rfl hfits
  rw [State.num, hread, hheld]

/-- Settles O19: the malformed words by the decoder, the answer by the cases of RDREG, the widths by the used bits. -/
theorem rdregAnswersTheRegister : Obligations.RdregAnswersTheRegister := by
  refine ⟨fun reg => decode_encode (.rdreg reg), fun c s hop himm => rdreg_fails_of_imm hop himm s,
    execRdreg_spec, fun s => ⟨num_rowbytes_of_blockInv, ?_, ?_, ?_, ?_, ?_⟩⟩
  · exact (s.num_le_usedBits .thresh).trans_lt (by decide)
  · exact (s.num_le_usedBits .ctrl).trans_lt (by decide)
  · exact (s.num_le_usedBits .status).trans_lt (by decide)
  · exact (s.num_le_usedBits .rowbytes).trans_lt (by decide)
  · exact (s.num_le_usedBits .bpol).trans_lt (by decide)

/-! ### NOP, CLRERR and SRESET -/

/-- Settles O17: NOP is a success completion over the old state. -/
theorem nopChangesNothing : Obligations.NopChangesNothing :=
  ⟨decode_encode .nop, complete_self 0 [],
    fun _ s hop hoperand => formatZ_fails_of_operand .nop (by decide) hop hoperand s⟩

/-- Settles O20: CLRERR is a success completion over one write, of 0 to STATUS. -/
theorem clrerrClearsOnlyStatus : Obligations.ClrerrClearsOnlyStatus :=
  ⟨decode_encode .clrerr, fun s => complete_setReg s .status 0,
    fun _ s hop hoperand => formatZ_fails_of_operand .clrerr (by decide) hop hoperand s⟩

/-- Settles O21: SRESET is a success completion over the state hardware reset gives. -/
theorem sresetEqualsHardwareReset : Obligations.SresetEqualsHardwareReset := by
  refine ⟨decode_encode .sreset, fun s => ?_,
    fun _ s hop hoperand => formatZ_fails_of_operand .sreset (by decide) hop hoperand s⟩
  obtain ⟨t, hnext, rfl, hanswered⟩ :=
    complete_answers 0 [] (s := s) (u := s.resetBlock) rfl rfl ⟨rfl, rfl, rfl, rfl, rfl⟩
  exact ⟨_, s.resetBlock, hnext, rfl, s.reg_resetBlock, rfl, rfl, rfl, ⟨rfl, rfl⟩, hanswered⟩

end Sys2Proof.Machine
end

section
/-! PROOFS. The scaler (spec/41_scaler.md): SCALEP and SCALEB as one scale operation, what the scaled buffer holds,
and the integer factor against the source's real-valued one (O26, O27, O29, O30). -/

namespace Sys2Proof.Machine

/-! ### The scaled buffer -/

/-- The state after a successful scale operation reads the geometry of its factor, which fits the registers, and
holds the scaled image; everything else is as before (R105, R106). -/
theorem putScaled_scaleFactor_spec (s : State) (w h : Nat) (pix : Nat → Nat → Nat → Pixel) :
    (s.putScaled (scaleFactor s w h) w h pix).num .outw = scaleFactor s w h * w ∧
    (s.putScaled (scaleFactor s w h) w h pix).num .outh = scaleFactor s w h * h ∧
    (s.putScaled (scaleFactor s w h) w h pix).num .factor = scaleFactor s w h ∧
    SameRegsBut [.outw, .outh, .factor] s (s.putScaled (scaleFactor s w h) w h pix) ∧
    (s.putScaled (scaleFactor s w h) w h pix).dst = scaledImage (scaleFactor s w h) w h pix ∧
    (s.putScaled (scaleFactor s w h) w h pix).bits = s.bits := by
  obtain ⟨hw, hh, hf⟩ := scaleFactor_mul_le s w h
  exact putScaled_spec s pix (hf.trans_lt (s.num_lt .maxf)) (hw.trans_lt (s.num_lt .maxw))
    (hh.trans_lt (s.num_lt .maxh))

theorem scaledImage_length (f w h : Nat) (pix : Nat → Nat → Nat → Pixel) :
    (scaledImage f w h pix).length = (f * w) * (f * h) := rowMajor_length ..

/-- Element `(ox, oy)` of the scaled image is the pixel at `(ox div F, oy div F)` (R106). -/
theorem scaledImage_at {f w h ox oy : Nat} (pix : Nat → Nat → Nat → Pixel) (hx : ox < f * w) (hy : oy < f * h) :
    (scaledImage f w h pix)[oy * (f * w) + ox]? = some (pix (oy * (f * w) + ox) (ox / f) (oy / f)) :=
  rowMajor_at _ hx hy

/-! ### The two commands as one scale operation -/

theorem failsWith_of_exec_eq_raise {e : ErrorKind} {i : Instr} {s : State} (he : e ≠ .decodeFailure)
    (h : exec i s = raise e s) : FailsWith e i s := by
  rw [FailsWith, h]
  exact raise_completes he s

/-- A command that executes as a scale operation scales its image: the errors of R102, R103 and R105 in their order,
else the buffer of R106. -/
theorem scalesImage_of_exec_eq_scale {i : Instr} {w h : Nat} {pix : Nat → Nat → Nat → Pixel} {s : State}
    (hexec : exec i s = scale w h pix s) : ScalesImage i w h pix s := by
  rw [ScalesImage, ← scaleFactor]
  obtain ⟨hz, hscale⟩ | ⟨hz, hf, hscale⟩ | ⟨hz, hf, hcap, hscale⟩ | ⟨hz, hf, hcap, hscale⟩ := scale_cases w h pix s
  · rw [if_pos hz]
    exact failsWith_of_exec_eq_raise (by decide) (hexec.trans hscale)
  · rw [if_neg hz, if_pos hf]
    exact failsWith_of_exec_eq_raise (by decide) (hexec.trans hscale)
  · rw [if_neg hz, if_neg hf, if_pos hcap]
    exact failsWith_of_exec_eq_raise (by decide) (hexec.trans hscale)
  · rw [if_neg hz, if_neg hf, if_neg hcap.not_gt]
    obtain ⟨hresponses, hout, -, haround⟩ := putScaled_surroundings s (scaleFactor s w h) w h pix
    obtain ⟨t, hnext, rfl, hanswered⟩ := complete_answers 0 [] hresponses hout haround
    obtain ⟨houtw, houth, hfactor, hregs, hdst, hbits⟩ := putScaled_scaleFactor_spec s w h pix
    refine ⟨_, hexec.trans (hscale.trans hnext), hanswered, houtw, houth, hfactor, hregs, hbits, ?_,
      fun ox oy hx hy => ?_⟩
    · rw [State.finish_dst, hdst, scaledImage_length]
    · rw [State.finish_dst, hdst, scaledImage_at pix hx hy]

/-- Settles O26: SCALEP executes as the scale operation on the source image. -/
theorem scalepScalesTheSourceImage : Obligations.ScalepScalesTheSourceImage :=
  ⟨decode_encode .scalep, fun _ => scalesImage_of_exec_eq_scale rfl⟩

/-- A raster bit is expanded to white when it equals the polarity, and to black otherwise (R108). -/
theorem expandBit_eq_ite (pol b : Bool) : expandBit pol b = if b = pol then white else black := by
  cases pol <;> cases b <;> rfl

theorem exec_scaleb_eq_scale (s : State) :
    exec .scaleb s =
      scale (s.num .bw) (s.num .bh) (fun _ x y => if s.bit x y = s.rasterPol then white else black) s := by
  simp only [← expandBit_eq_ite]
  rfl

/-- Settles O27: SCALEB executes as the scale operation on the raster in black and white. -/
theorem scalebScalesTheRaster : Obligations.ScalebScalesTheRaster :=
  ⟨decode_encode .scaleb, fun s => scalesImage_of_exec_eq_scale (exec_scaleb_eq_scale s)⟩

/-! ### The factor and the source's real-valued formulas -/

/-- Settles O29: `floor` is monotone, so it passes through the minimum, and the floor of a quotient of naturals is
their `div`. -/
theorem integerFactorIsTheFloorOfTheRealFactor : Obligations.IntegerFactorIsTheFloorOfTheRealFactor := by
  refine ⟨fun s w h _ _ _ _ _ => ?_, fun f w ox round hround _ => ⟨?_, Rat.floor_natCast_div_natCast ox f⟩⟩
  · rw [Int.floor_mono.map_min, Int.floor_mono.map_min, Int.floor_natCast, Rat.floor_natCast_div_natCast,
      Rat.floor_natCast_div_natCast, scaleFactor]
    norm_cast
  · have hcast : (f : ℚ) * w = ((f * w : Nat) : ℤ) := by push_cast; rfl
    rw [hcast, hround]

/-! ### Blocks of equal pixels -/

theorem responseWord_errorCode_ne_zero (e : ErrorKind) : responseWord (errorCode e) 0 ≠ 0 := by
  cases e <;> decide

/-- An error completion does not answer the response 0. -/
theorem raise_responses_ne {e : ErrorKind} {s t : State} (h : raise e s = .next t) :
    t.responses ≠ s.responses ++ [0] := by
  rw [raise_next h]
  simpa using responseWord_errorCode_ne_zero e

/-- A scale operation that answers 0 had a factor of at least 1 and left the scaled buffer. -/
theorem scale_succeeded {w h : Nat} {pix : Nat → Nat → Nat → Pixel} {s t : State} (ht : scale w h pix s = .next t)
    (hok : t.responses = s.responses ++ [0]) :
    1 ≤ scaleFactor s w h ∧
      t = (s.putScaled (scaleFactor s w h) w h pix).finish (responseWord okCode 0) [] := by
  obtain ⟨-, he⟩ | ⟨-, -, he⟩ | ⟨-, -, -, he⟩ | ⟨-, hf, -, hs⟩ := scale_cases w h pix s
  · exact absurd hok (raise_responses_ne (he ▸ ht))
  · exact absurd hok (raise_responses_ne (he ▸ ht))
  · exact absurd hok (raise_responses_ne (he ▸ ht))
  · exact ⟨Nat.one_le_iff_ne_zero.2 hf, complete_next (hs ▸ ht)⟩

/-- Position `ox` of the `x`th block of `f` positions is inside `w` blocks, and `x` is the block it is in (R107). -/
theorem block_position {f w x ox : Nat} (hx : x < w) (hlo : f * x ≤ ox) (hhi : ox < f * x + f) :
    ox < f * w ∧ ox / f = x := by
  have hlast : f * x + f ≤ f * w := Nat.mul_le_mul_left f hx
  exact ⟨by omega, Nat.div_eq_of_lt_le (by rwa [Nat.mul_comm]) (by rwa [Nat.mul_comm])⟩

/-- The DST port between commands answers the element of a scaled image that DST holds (R54, R106). -/
theorem dstRead_scaledImage {t : State} {f w h : Nat} {pix : Nat → Nat → Nat → Pixel}
    (houtw : t.num .outw = f * w) (houth : t.num .outh = f * h) (hdst : t.dst = scaledImage f w h pix) {ox oy : Nat}
    (hx : ox < f * w) (hy : oy < f * h) :
    t.dstRead false ox oy = pix (oy * (f * w) + ox) (ox / f) (oy / f) := by
  simp [State.dstRead, houtw, houth, hdst, hx, hy, scaledImage_at]

/-- What R107 says of the result `t` of scaling, from state `s`, an image of width `w`, height `h` and pixels `img`:
the geometry of FACTOR, inside the envelope and the magnification limit, and one `F × F` block per pixel. -/
def ScaledInBlocks (s t : State) (w h : Nat) (img : Nat → Nat → Pixel) : Prop :=
  1 ≤ t.num .factor ∧ t.num .outw = t.num .factor * w ∧ t.num .outh = t.num .factor * h ∧
  t.num .outw ≤ s.num .maxw ∧ t.num .outh ≤ s.num .maxh ∧ t.num .outw ≤ s.num .maxf * w ∧
  t.num .outh ≤ s.num .maxf * h ∧ w ≤ t.num .outw ∧ h ≤ t.num .outh ∧
  ∀ x y ox oy, x < w → y < h → t.num .factor * x ≤ ox → ox < t.num .factor * x + t.num .factor →
    t.num .factor * y ≤ oy → oy < t.num .factor * y + t.num .factor → t.dstRead false ox oy = img x y

/-- A scale operation that answers 0 scales in blocks any image its pixels agree with, whatever element of the result
they are read for. -/
theorem scale_scaledInBlocks {w h : Nat} {pix : Nat → Nat → Nat → Pixel} {img : Nat → Nat → Pixel} {s t : State}
    (hpix : ∀ k x y, x < w → y < h → pix k x y = img x y) (ht : scale w h pix s = .next t)
    (hok : t.responses = s.responses ++ [0]) : ScaledInBlocks s t w h img := by
  obtain ⟨hpos, rfl⟩ := scale_succeeded ht hok
  obtain ⟨houtw, houth, hfactor, -, hdst, -⟩ := putScaled_scaleFactor_spec s w h pix
  obtain ⟨hmaxw, hmaxh, hmaxf⟩ := scaleFactor_mul_le s w h
  simp only [ScaledInBlocks, State.num_finish, State.dstRead_finish, houtw, houth, hfactor]
  refine ⟨hpos, trivial, trivial, hmaxw, hmaxh, Nat.mul_le_mul_right w hmaxf, Nat.mul_le_mul_right h hmaxf,
    Nat.le_mul_of_pos_left w hpos, Nat.le_mul_of_pos_left h hpos, fun x y ox oy hx hy hxlo hxhi hylo hyhi => ?_⟩
  obtain ⟨hox, hxblock⟩ := block_position hx hxlo hxhi
  obtain ⟨hoy, hyblock⟩ := block_position hy hylo hyhi
  rw [dstRead_scaledImage houtw houth hdst hox hoy, hxblock, hyblock, hpix _ x y hx hy]

/-- A buffer the collaborator covers answers its own pixels, whatever element they are read for (R52). -/
theorem srcRead_eq_of_covered {s : State} {img : Nat → Nat → Pixel} (hcovers : SourceCovers s) {x y : Nat}
    (hx : x < s.num .srcw) (hy : y < s.num .srch)
    (himg : s.src.pixels[y * s.src.width + x]? = some (img x y)) (k : Nat) : s.srcRead k x y = img x y := by
  obtain ⟨p, hp, hread⟩ := srcRead_covered hcovers hx hy
  rw [hread k]
  exact Option.some.inj (hp.symm.trans himg)

/-- Settles O30: both commands are a scale operation, of an image whose pixels do not depend on the element they are
read for. -/
theorem scaledPixelsAreEqualBlocksInsideTheEnvelope : Obligations.ScaledPixelsAreEqualBlocksInsideTheEnvelope := by
  rintro s t i w h img (⟨rfl, rfl, rfl, hcovers, himg⟩ | ⟨rfl, rfl, rfl, himg⟩) ht hok
  · exact scale_scaledInBlocks
      (fun k x y hx hy => srcRead_eq_of_covered hcovers hx hy (himg x y hx hy) k) ht hok
  · exact scale_scaledInBlocks (fun _ x y _ _ => (himg x y).symm) (exec_scaleb_eq_scale s ▸ ht) hok

end Sys2Proof.Machine
end

section
/-! PROOFS. The binarizer (spec/42_binarizer.md): the luma of a pixel word, its bit by threshold and polarity, the
raster TOBIN writes, the empty image, and that the raster and its text depend on the image and the settings alone
(O31 to O35, O52). -/

namespace Sys2Proof.Machine

/-! ### Luma -/

/-- The three bytes of a pixel word, from bit 23 down (R53). -/
theorem extractLsb'_pixel (r g b : BitVec 8) :
    (r ++ g ++ b).extractLsb' 16 8 = r ∧ (r ++ g ++ b).extractLsb' 8 8 = g ∧ (r ++ g ++ b).extractLsb' 0 8 = b :=
  ⟨(BitVec.extractLsb'_append_eq_of_le (by decide)).trans BitVec.extractLsb'_append_eq_left,
    (BitVec.extractLsb'_append_eq_of_le (by decide)).trans BitVec.extractLsb'_append_eq_right,
    BitVec.extractLsb'_append_eq_right⟩

theorem lumaRgb_append (r g b : BitVec 8) :
    lumaRgb (r ++ g ++ b) = (299 * r.toNat + 587 * g.toNat + 114 * b.toNat + 500) / 1000 := by
  obtain ⟨hr, hg, hb⟩ := extractLsb'_pixel r g b
  rw [lumaRgb, hr, hg, hb]

theorem lumaGray_append (r g v : BitVec 8) : lumaGray (r ++ g ++ v) = v.toNat := by
  obtain ⟨-, -, hv⟩ := extractLsb'_pixel r g v
  rw [lumaGray, hv]

/-- The weighted sum of three bytes is at most 255 times the sum of the weights (R121). -/
theorem lumaSum_le (r g b : BitVec 8) : 299 * r.toNat + 587 * g.toNat + 114 * b.toNat ≤ 255000 := by
  have := r.isLt
  have := g.isLt
  have := b.isLt
  omega

theorem luma_white (fmt : Bool) : luma fmt white = 255 := by cases fmt <;> rfl

theorem luma_black (fmt : Bool) : luma fmt black = 0 := by cases fmt <;> rfl

/-- Settles O33: the RGB888 cases are the weighted sum of the bytes the pixel word holds; the weights sum to 1000. -/
theorem lumaFollowsThePixelLayout : Obligations.LumaFollowsThePixelLayout := by
  intro r g b v
  have hsum := lumaSum_le r g b
  refine ⟨lumaRgb_append r g b, hsum, ?_, ?_, lumaGray_append r g v, luma_white false, luma_black false⟩
  · calc lumaRgb (r ++ g ++ b) = (299 * r.toNat + 587 * g.toNat + 114 * b.toNat + 500) / 1000 := lumaRgb_append r g b
      _ ≤ 255 := by omega
  · calc lumaRgb (v ++ v ++ v) = (299 * v.toNat + 587 * v.toNat + 114 * v.toNat + 500) / 1000 := lumaRgb_append v v v
      _ = v.toNat := by omega

/-- No pixel word of either format has a luma above 255 (R121, R122). -/
theorem luma_le (fmt : Bool) (p : Pixel) : luma fmt p ≤ 255 := by
  cases fmt with
  | true => exact Nat.le_of_lt_succ (p.extractLsb' 0 8).isLt
  | false =>
    have hsum := lumaSum_le (p.extractLsb' 16 8) (p.extractLsb' 8 8) (p.extractLsb' 0 8)
    change lumaRgb p ≤ 255
    unfold lumaRgb
    omega

/-! ### Threshold and polarity -/

/-- The bit of a pixel word is the polarity for a light pixel and its complement for a dark one (R123, R124). -/
theorem pixelBit_eq_ite (fmt pol : Bool) (thresh : Nat) (p : Pixel) :
    pixelBit fmt pol thresh p = if pol = false then decide (luma fmt p < thresh) else decide (thresh ≤ luma fmt p) := by
  cases pol with
  | true => rfl
  | false => exact decide_not.symm.trans (decide_eq_decide.2 not_le)

theorem pixelBit_eq_pol_iff {fmt pol : Bool} {thresh : Nat} {p : Pixel} :
    pixelBit fmt pol thresh p = pol ↔ thresh ≤ luma fmt p := by
  cases pol <;> simp [pixelBit_eq_ite]

/-- A dark pixel has the complement of the polarity. -/
theorem pixelBit_eq_not_pol_iff {fmt pol : Bool} {thresh : Nat} {p : Pixel} :
    pixelBit fmt pol thresh p = !pol ↔ luma fmt p < thresh := by
  rw [Bool.eq_not, ne_eq, pixelBit_eq_pol_iff, not_le]

/-- Settles O34: a pixel has the bit of the polarity exactly when its luma, which is at most 255, reaches THRESH. -/
theorem thresholdAndPolarityOfAPixel : Obligations.ThresholdAndPolarityOfAPixel := by
  refine ⟨pixelBit_eq_ite, fun fmt pol p => ⟨?_, ?_, fun thresh hthresh => ⟨white, ?_⟩⟩⟩
  · exact pixelBit_eq_pol_iff.2 (Nat.zero_le _)
  · rw [pixelBit_eq_pol_iff]
    exact (luma_le fmt p).ge_iff_eq
  · rwa [pixelBit_eq_pol_iff, luma_white]

/-- Settles O35: black is dark from THRESH 1 on and white is light up to THRESH 255. -/
theorem rethresholdIsIdempotent : Obligations.RethresholdIsIdempotent := by
  intro thresh hpos hle
  have hdark {fmt pol : Bool} {p : Pixel} (hp : luma fmt p = 0) : pixelBit fmt pol thresh p = !pol :=
    pixelBit_eq_not_pol_iff.2 (hp ▸ hpos)
  have hlight {fmt pol : Bool} {p : Pixel} (hp : luma fmt p = 255) : pixelBit fmt pol thresh p = pol :=
    pixelBit_eq_pol_iff.2 (hp ▸ hle)
  refine ⟨fun p pol hp => hdark hp, fun p pol hp => hlight hp,
    fun pol => ⟨hdark (luma_black false), hlight (luma_white false)⟩, fun fmt pol b => ?_⟩
  rw [expandBit_eq_ite]
  split_ifs with hb
  · exact (hlight (luma_white fmt)).trans hb.symm
  · exact (hdark (luma_black fmt)).trans (Bool.eq_not.2 hb).symm

/-! ### The settings of CTRL and the polarity of the raster as numbers -/

theorem num_ctrl_mod_two (s : State) : s.num .ctrl % 2 = s.ctrlPol.toNat := by
  have hbit : s.ctrlPol.toNat = s.num .ctrl / 2 ^ 0 % 2 := Nat.toNat_testBit (s.num .ctrl) 0
  omega

/-- CTRL reads two bits, so its quotient by 2 is the format alone (R27). -/
theorem num_ctrl_div_two (s : State) : s.num .ctrl / 2 = s.ctrlFmt.toNat := by
  have hle : s.num .ctrl ≤ 3 := s.num_le_usedBits .ctrl
  have hbit : s.ctrlFmt.toNat = s.num .ctrl / 2 ^ 1 % 2 := Nat.toNat_testBit (s.num .ctrl) 1
  omega

/-- BPOL reads one bit (R31). -/
theorem num_bpol (s : State) : s.num .bpol = s.rasterPol.toNat := by
  have hle : s.num .bpol ≤ 1 := s.num_le_usedBits .bpol
  have hbit : s.rasterPol.toNat = s.num .bpol / 2 ^ 0 % 2 := Nat.toNat_testBit (s.num .bpol) 0
  omega

theorem luma_ctrlFmt (s : State) (p : Pixel) :
    luma s.ctrlFmt p = if s.num .ctrl / 2 = 0 then lumaRgb p else lumaGray p := by
  rw [num_ctrl_div_two]
  cases s.ctrlFmt <;> rfl

/-- The bit of a pixel word under the polarity in force, by the number CTRL reads (R27, R124). -/
theorem pixelBit_ctrlPol (s : State) (fmt : Bool) (thresh : Nat) (p : Pixel) :
    pixelBit fmt s.ctrlPol thresh p =
      if s.num .ctrl % 2 = 0 then decide (luma fmt p < thresh) else decide (thresh ≤ luma fmt p) := by
  rw [pixelBit_eq_ite, num_ctrl_mod_two]
  cases s.ctrlPol <;> rfl

/-! ### TOBIN -/

theorem binarized_length (s : State) : (binarized s).length = s.num .srcw * s.num .srch := rowMajor_length ..

theorem binarized_at (s : State) {x y : Nat} (hx : x < s.num .srcw) (hy : y < s.num .srch) :
    (binarized s)[y * s.num .srcw + x]? =
      some (pixelBit s.ctrlFmt s.ctrlPol (s.num .thresh) (s.srcRead (y * s.num .srcw + x) x y)) :=
  rowMajor_at _ hx hy

theorem exec_tobin_of_fits {s : State} (hcap : s.num .srcw * s.num .srch ≤ s.params.bitsCap) :
    exec .tobin s = complete 0 [] s.putRaster := if_neg hcap.not_gt

/-- A TOBIN whose image fits BITS answers 0 over the raster and its geometry, and changes nothing else (R125). -/
theorem exec_tobin_succeeds {s : State} (hcap : s.num .srcw * s.num .srch ≤ s.params.bitsCap) :
    ∃ t, exec .tobin s = .next t ∧ t = s.putRaster.finish (responseWord okCode 0) [] ∧ Answered 0 [] s t ∧
      t.reg .bw = s.reg .srcw ∧ t.reg .bh = s.reg .srch ∧ t.num .rowbytes = (s.num .srcw + 7) / 8 ∧
      t.num .bpol = s.num .ctrl % 2 ∧ SameRegsBut [.bw, .bh, .rowbytes, .bpol] s t ∧ t.dst = s.dst ∧
      t.bits = binarized s := by
  obtain ⟨hresponses, hout, haround⟩ := putRaster_surroundings s
  obtain ⟨t, hnext, rfl, hanswered⟩ := complete_answers 0 [] hresponses hout haround
  obtain ⟨hbw, hbh, hrowbytes, hpol, hregs, hbits, hdst⟩ := putRaster_spec s
  have hbpol : s.putRaster.num .bpol = s.num .ctrl % 2 := by rw [num_bpol, hpol, num_ctrl_mod_two]
  exact ⟨_, (exec_tobin_of_fits hcap).trans hnext, rfl, hanswered, hbw, hbh, hrowbytes, hbpol, hregs, hdst, hbits⟩

/-- A WRREG, permitted or refused, writes neither BITS nor, but for the flag of its error in STATUS, a register that is
not writable (R91, R193). -/
theorem exec_wrreg_keeps {reg : BitVec 8} {imm : RegWord} {t u : State} (hu : exec (.wrreg reg imm) t = .next u) :
    u.bits = t.bits ∧ ∀ r, r ≠ .status → 6 < (regNumber r).toNat → u.reg r = t.reg r := by
  obtain ⟨e, -, herr⟩ | ⟨v, data, bytes, hok, hsucc⟩ := exec_cases (.wrreg reg imm) t
  · have hraise := herr.symm.trans hu
    obtain ⟨⟨hbits, -⟩, -⟩ := raise_frame hraise
    exact ⟨hbits, fun r hr _ => raise_regs hraise r (by simpa using hr)⟩
  · rw [complete_next (hok.symm.trans hu)]
    exact ⟨hsucc.bits (by simp), fun r _ hr => hsucc.regs r (by simp [writesOf, hr])⟩

/-- Settles O31: the two ends of TOBIN, and the frame of WRREG. -/
theorem tobinBinarizesTheSourceImage : Obligations.TobinBinarizesTheSourceImage := by
  refine ⟨decode_encode .tobin, fun s => ?_, fun s t u reg imm _ hu => ?_⟩
  · by_cases hcap : s.params.bitsCap < s.num .srcw * s.num .srch
    · rw [if_pos hcap]
      exact failsWith_of_exec_eq_raise (by decide) (if_pos hcap)
    · rw [if_neg hcap]
      obtain ⟨t, hnext, -, hanswered, hbw, hbh, hrowbytes, hbpol, hregs, hdst, hbits⟩ :=
        exec_tobin_succeeds (not_lt.1 hcap)
      refine ⟨t, hnext, hanswered, congrArg BitVec.toNat hbw, congrArg BitVec.toNat hbh, hrowbytes, hbpol, hregs,
        hdst, ?_, fun x y hx hy => ?_⟩
      · rw [hbits, binarized_length]
      · rw [hbits, binarized_at s hx hy, pixelBit_ctrlPol, luma_ctrlFmt]
        rfl
  · obtain ⟨hbits, hregs⟩ := exec_wrreg_keeps hu
    refine ⟨hbits, fun r hr => ?_⟩
    fin_cases hr <;> exact hregs _ (by decide) (by decide)

/-! ### The empty image -/

/-- An image without columns or without rows gives no bit, whatever the source port holds (R126). -/
theorem binarized_of_empty {s : State} (h : s.num .srcw = 0 ∨ s.num .srch = 0) : binarized s = [] :=
  rowMajor_empty _ h

/-- Binarizing an empty image does not depend on the source buffer (R126). -/
theorem putRaster_of_empty_withSrc {s : State} (h : s.num .srcw = 0 ∨ s.num .srch = 0) (buffer : PixelBuffer) :
    State.putRaster { s with src := buffer } = { s.putRaster with src := buffer } := by
  have hbits : binarized { s with src := buffer } = [] := binarized_of_empty h
  rw [State.putRaster, State.putRaster, hbits, binarized_of_empty h]
  rfl

/-- The text of an empty raster is the opening and the closing line (R147). -/
theorem codeText_of_empty {s : State} (h : s.num .bw = 0 ∨ s.num .bh = 0) :
    codeText s = [0x7B, 0x0A, 0x7D, 0x3B, 0x0A] := by
  rw [codeText, if_neg (by omega)]
  rfl

/-- An empty raster packs to no byte (R137). -/
theorem packed_of_empty {s : State} (h : s.num .bw = 0 ∨ s.num .bh = 0) : packed s = [] :=
  rowMajor_empty _ (h.imp_left fun hbw => by rw [rowByteWidth, hbw]; rfl)

/-- Settles O32: an empty image fits every capacity, and neither the raster nor the buffer in it is read. -/
theorem emptyImageGivesTheEmptyRaster : Obligations.EmptyImageGivesTheEmptyRaster := by
  intro s hempty
  have hcap : s.num .srcw * s.num .srch ≤ s.params.bitsCap := by
    rw [Nat.mul_eq_zero.2 hempty]
    exact Nat.zero_le _
  obtain ⟨t, hnext, ht, hanswered, hbw, hbh, hrowbytes, hbpol, -, -, hbits⟩ := exec_tobin_succeeds hcap
  have hraster : t.num .bw = 0 ∨ t.num .bh = 0 := by rwa [State.num, State.num, hbw, hbh]
  have hbuffer (buffer : PixelBuffer) :
      exec .tobin { s with src := buffer } = .next { t with src := buffer } := by
    have hcap' : State.num { s with src := buffer } .srcw * State.num { s with src := buffer } .srch ≤
      s.params.bitsCap := hcap
    rw [exec_tobin_of_fits hcap', putRaster_of_empty_withSrc hempty, ht]
    rfl
  exact ⟨t, _, _, hnext, hbw, hbh, hrowbytes, hbpol, hbits.trans (binarized_of_empty hempty), hanswered, hbuffer,
    rfl, codeText_of_empty hraster, rfl, packed_of_empty hraster⟩

/-! ### What the raster and its text depend on -/

/-- Row-major buffers of one size that agree at every position are equal. -/
theorem rowMajor_congr {α : Type} {w h : Nat} {f g : Nat → Nat → α} (hfg : ∀ x y, x < w → y < h → f x y = g x y) :
    rowMajor w h f = rowMajor w h g := by
  refine List.map_congr_left fun i hi => hfg _ _ ?_ ?_
  · exact Nat.mod_lt i (Nat.pos_of_mul_pos_right (Nat.zero_lt_of_lt (List.mem_range.1 hi)))
  · exact Nat.div_lt_of_lt_mul (List.mem_range.1 hi)

/-- The bits of the source image depend on SRCW, SRCH, THRESH, CTRL and the source port's answers alone (R62). -/
theorem binarized_congr {s s' : State} (hregs : ∀ r ∈ [Reg.srcw, .srch, .thresh, .ctrl], s.reg r = s'.reg r)
    (hread : ∀ k x y, x < s.num .srcw → y < s.num .srch → s.srcRead k x y = s'.srcRead k x y) :
    binarized s = binarized s' := by
  have hw : s.num .srcw = s'.num .srcw := congrArg BitVec.toNat (hregs _ (by decide))
  have hh : s.num .srch = s'.num .srch := congrArg BitVec.toNat (hregs _ (by decide))
  have hthresh : s.num .thresh = s'.num .thresh := congrArg BitVec.toNat (hregs _ (by decide))
  have hctrl : s.reg .ctrl = s'.reg .ctrl := hregs _ (by decide)
  have hfmt : s.ctrlFmt = s'.ctrlFmt := congrArg (BitVec.getLsbD · 1) hctrl
  have hpol : s.ctrlPol = s'.ctrlPol := congrArg (BitVec.getLsbD · 0) hctrl
  rw [binarized, binarized, ← hw, ← hh, ← hthresh, ← hfmt, ← hpol]
  exact rowMajor_congr fun x y hx hy => congrArg _ (hread _ x y hx hy)

/-- Two states offered one buffer that covers their window are answered alike, at any two draw numbers (R52). -/
theorem srcRead_congr {s s' : State} (hcovers : SourceCovers s) (hsrc : s.src = s'.src)
    (hw : s.num .srcw = s'.num .srcw) (hh : s.num .srch = s'.num .srch) (k : Nat) {x y : Nat} (hx : x < s.num .srcw)
    (hy : y < s.num .srch) : s.srcRead k x y = s'.srcRead k x y := by
  obtain ⟨p, hp, hread⟩ := srcRead_covered hcovers hx hy
  have hcovers' : SourceCovers s' := by rwa [SourceCovers, ← hsrc, ← hw, ← hh]
  obtain ⟨p', hp', hread'⟩ := srcRead_covered hcovers' (hw ▸ hx) (hh ▸ hy)
  rw [hread k, hread' k]
  rw [hsrc] at hp
  exact Option.some.inj (hp.symm.trans hp')

/-- Two states hold one raster: the same bits and the same dimensions (R35). -/
structure SameRaster (s s' : State) : Prop where
  bw : s.reg .bw = s'.reg .bw
  bh : s.reg .bh = s'.reg .bh
  bits : s.bits = s'.bits

section
variable {s s' : State} (h : SameRaster s s')
include h

theorem SameRaster.num_bw_eq : s.num .bw = s'.num .bw := congrArg BitVec.toNat h.bw

theorem SameRaster.num_bh_eq : s.num .bh = s'.num .bh := congrArg BitVec.toNat h.bh

theorem SameRaster.rowByteWidth_eq : rowByteWidth s = rowByteWidth s' := congrArg ceil8 h.num_bw_eq

theorem SameRaster.packedByte_eq (y j : Nat) : packedByte s y j = packedByte s' y j := by
  simp only [packedByte, paddedBit, State.bit, h.num_bw_eq, h.bits]

theorem SameRaster.tokenText_eq (y j : Nat) : tokenText s y j = tokenText s' y j := by
  rw [tokenText, tokenText, h.packedByte_eq, h.num_bh_eq, h.rowByteWidth_eq]

/-- The text of a raster depends on the raster alone (R146, R149). -/
theorem SameRaster.codeText_eq : codeText s = codeText s' := by
  simp only [codeText, rowText, h.rowByteWidth_eq, h.tokenText_eq, h.num_bw_eq, h.num_bh_eq]

end

/-- Settles O52: the two states are answered alike by the source port, so TOBIN leaves one raster in both, and ENCODE
depends on the raster alone. -/
theorem conversionOfASteadyImageIsDeterministic : Obligations.ConversionOfASteadyImageIsDeterministic := by
  intro s s' hcovers hsrc hparams hregs hcap
  have hw : s.reg .srcw = s'.reg .srcw := hregs _ (by decide)
  have hh : s.reg .srch = s'.reg .srch := hregs _ (by decide)
  have hnumw : s.num .srcw = s'.num .srcw := congrArg BitVec.toNat hw
  have hnumh : s.num .srch = s'.num .srch := congrArg BitVec.toNat hh
  have hsame : binarized s = binarized s' :=
    binarized_congr hregs fun k _ _ hx hy => srcRead_congr hcovers hsrc hnumw hnumh k hx hy
  have hcap' : s'.num .srcw * s'.num .srch ≤ s'.params.bitsCap := by rwa [← hnumw, ← hnumh, ← hparams]
  obtain ⟨t, hnext, -, -, hbw, hbh, -, -, -, -, hbits⟩ := exec_tobin_succeeds hcap
  obtain ⟨t', hnext', -, -, hbw', hbh', -, -, -, -, hbits'⟩ := exec_tobin_succeeds hcap'
  have hraster : SameRaster t t' :=
    ⟨by rw [hbw, hbw', hw], by rw [hbh, hbh', hh], by rw [hbits, hbits', hsame]⟩
  exact ⟨t, t', _, _, hnext, hnext', hraster.bits, hraster.bw, hraster.bh, rfl, rfl, hraster.codeText_eq⟩

end Sys2Proof.Machine
end

section
/-! PROOFS. The packer and encoder (spec/43_packer_encoder.md): the bits of a packed byte, the token of a byte, ENCODE's
text as the array literal of the packed rows, and its length (O37 to O41). -/

namespace Sys2Proof.Machine

/-! ### Both commands keep the raster -/

/-- A command that changes no register and no store keeps the raster. -/
theorem SameRaster.of_unchanged {s t : State} (hregs : t.regs = s.regs) (hstores : SameStores s t) : SameRaster t s :=
  ⟨congrArg (RegFile.read · .bw) hregs, congrArg (RegFile.read · .bh) hregs, hstores.1⟩

/-- What PACK emits depends on the raster alone (R139). -/
theorem SameRaster.packed_eq {s s' : State} (h : SameRaster s s') : packed s = packed s' := by
  simp only [packed, h.rowByteWidth_eq, h.num_bh_eq, h.packedByte_eq]

/-! ### Packed bytes -/

/-- The number whose binary digits are `f 0` to `f (n - 1)`, the first one the most significant (R56). -/
def msbFirst (n : Nat) (f : Nat → Bool) : Nat :=
  ((List.range n).map fun k => (f k).toNat <<< (n - 1 - k)).sum

theorem packedByte_eq_msbFirst (s : State) (y j : Nat) :
    packedByte s y j = BitVec.ofNat 8 (msbFirst 8 fun k => paddedBit s (8 * j + k) y) := rfl

/-- One more digit at the end doubles the number. -/
theorem msbFirst_succ (n : Nat) (f : Nat → Bool) : msbFirst (n + 1) f = Nat.bit (f n) (msbFirst n f) := by
  have hshift : ∀ k ∈ List.range n, (f k).toNat <<< (n - k) = 2 * (f k).toNat <<< (n - 1 - k) := by
    intro k hk
    have hexp : n - k = n - 1 - k + 1 := by
      have := List.mem_range.1 hk
      omega
    rw [hexp, Nat.shiftLeft_succ]
  have hlast : (f n).toNat <<< (n - n) = (f n).toNat := by rw [Nat.sub_self, Nat.shiftLeft_zero]
  rw [msbFirst, List.range_succ, List.map_append, List.sum_append, Nat.add_sub_cancel, List.map_congr_left hshift,
    List.sum_map_mul_left, List.map_singleton, List.sum_singleton, hlast, Nat.bit_val, msbFirst]

theorem testBit_msbFirst (f : Nat → Bool) {n k : Nat} (hk : k < n) : (msbFirst n f).testBit (n - 1 - k) = f k := by
  induction n with
  | zero => exact absurd hk (Nat.not_lt_zero k)
  | succ n ih =>
    rw [msbFirst_succ, Nat.add_sub_cancel]
    rcases Nat.lt_succ_iff_lt_or_eq.1 hk with hlt | rfl
    · have hpos : n - k = n - 1 - k + 1 := by omega
      rw [hpos, Nat.testBit_bit_succ, ih hlt]
    · rw [Nat.sub_self, Nat.testBit_bit_zero]

/-- Bit `7 - k` of a packed byte is the pixel `k` places to the right of the byte's first one (R136). -/
theorem getLsbD_packedByte (s : State) (y j : Nat) {k : Nat} (hk : k < 8) :
    (packedByte s y j).getLsbD (7 - k) = paddedBit s (8 * j + k) y := by
  have hpos : 7 - k < 8 := by omega
  rw [packedByte_eq_msbFirst, BitVec.getLsbD_ofNat, decide_eq_true hpos, Bool.true_and]
  exact testBit_msbFirst _ hk

/-- Settles O37: PACK is a success completion with the packed bytes over the old state, whose raster it keeps. -/
theorem packEmitsTheRowsMsbFirst : Obligations.PackEmitsTheRowsMsbFirst := by
  refine ⟨decode_encode .pack, fun s => ?_⟩
  obtain ⟨t, hnext, hanswered, hregs, hstores⟩ := complete_self 0 (packed s) s
  exact ⟨t, packed s, hnext, hanswered, hregs, hstores, packed_length s,
    fun y j hy hj => ⟨packedByte s y j, packed_at s hj hy, fun k hk => getLsbD_packedByte s y j hk⟩,
    _, rfl, (SameRaster.of_unchanged hregs hstores).packed_eq⟩

/-! ### Tokens -/

/-- The digit codes computed and the table of character codes agree (R144). -/
theorem digitCode_eq_getD {d : Nat} (hd : d < 16) : digitCode d = hexDigits.getD d 0 := by
  interval_cases d <;> rfl

theorem digitCode_mem_hexDigits {d : Nat} (hd : d < 16) : digitCode d ∈ hexDigits := by
  have hlt : d < hexDigits.length := hd
  rw [digitCode_eq_getD hd, List.getD_eq_getElem _ _ hlt]
  exact List.getElem_mem hlt

/-- Both hexadecimal digits of a byte are below 16. -/
theorem hexDigit_lt (b : Byte) : b.toNat / 16 < 16 ∧ b.toNat % 16 < 16 := by
  have := b.isLt
  omega

/-- The token computed and the token from the table agree (R141). -/
theorem hexToken_eq_tokenOf (b : Byte) : hexToken b = tokenOf b := by
  obtain ⟨hhigh, hlow⟩ := hexDigit_lt b
  rw [hexToken, tokenOf, digitCode_eq_getD hhigh, digitCode_eq_getD hlow]
  by_cases hb : b.toNat < 16
  · rw [if_pos hb, if_neg (not_le.2 hb), Nat.mod_eq_of_lt hb]
    rfl
  · rw [if_neg hb, if_pos (not_lt.1 hb)]
    rfl

theorem mem_hexToken {b c : Byte} (hc : c ∈ hexToken b) : c ∈ 0x78 :: hexDigits := by
  obtain ⟨hhigh, hlow⟩ := hexDigit_lt b
  have hdigit {d : Nat} (hd : d < 16) : digitCode d ∈ 0x78 :: hexDigits :=
    List.mem_cons_of_mem _ (digitCode_mem_hexDigits hd)
  rw [hexToken, List.mem_append, List.mem_append, List.mem_pair, List.mem_singleton] at hc
  obtain ((rfl | rfl) | hc) | rfl := hc
  · exact hdigit (by decide)
  · exact List.mem_cons_self
  · split_ifs at hc with hb
    · exact List.mem_singleton.1 hc ▸ hdigit hhigh
    · cases hc
  · exact hdigit hlow

/-- Settles O40: the digit codes are those of the table, digit by digit. -/
theorem hexTokenOfEveryByte : Obligations.HexTokenOfEveryByte :=
  fun b => ⟨hexToken_eq_tokenOf b, fun _ => mem_hexToken⟩

theorem tokenOf_length (b : Byte) : (tokenOf b).length = if b.toNat < 16 then 3 else 4 := by
  rw [tokenOf]
  split_ifs <;> rfl

/-! ### The text of the rows -/

/-- Lists joined by a separator: each but the last is followed by it. -/
theorem intercalate_concat {α : Type} (sep : List α) (ls : List (List α)) (l : List α) :
    List.intercalate sep (ls ++ [l]) = ls.flatMap (· ++ sep) ++ l := by
  induction ls with
  | nil => exact List.append_nil l
  | cons a ls ih =>
    have hcons : List.intercalate sep (a :: (ls ++ [l])) = a ++ sep ++ List.intercalate sep (ls ++ [l]) := by
      cases ls <;> simp [List.intercalate]
    rw [List.cons_append, hcons, ih, List.flatMap_cons, List.append_assoc _ _ l]

/-- The tokens of these bytes, each with a comma after it (R142). -/
def commaTokens (bs : List Byte) : List Byte := bs.flatMap fun b => tokenOf b ++ [0x2C]

/-- The text of rows each of whose tokens has a comma after it (R140, R142). -/
def commaLines (rows : List (List Byte)) : List Byte := rows.flatMap fun row => commaTokens row ++ [0x0A]

/-- In the text of a non-empty array every token but the very last has a comma after it (R142). -/
theorem arrayText_concat (rows : List (List Byte)) (row : List Byte) (b : Byte) :
    arrayText (rows ++ [row ++ [b]]) =
      [0x7B, 0x0A] ++ (commaLines rows ++ (commaTokens row ++ tokenOf b ++ [0x0A])) ++ [0x7D, 0x3B, 0x0A] := by
  rw [arrayText, List.dropLast_concat, List.getLastD_concat, List.map_append, List.map_singleton, intercalate_concat,
    List.flatMap_map]
  simp only [commaLines, commaTokens, List.append_assoc]

/-- The packed bytes of one row (R137). -/
def packedRow (s : State) (y : Nat) : List Byte := (List.range (rowByteWidth s)).map (packedByte s y)

theorem packedRows_eq_map (s : State) : packedRows s = (List.range (s.num .bh)).map (packedRow s) := rfl

theorem packedRows_length (s : State) : (packedRows s).length = s.num .bh := by
  rw [packedRows_eq_map, List.length_map, List.length_range]

theorem packedRows_flatten_length (s : State) : (packedRows s).flatten.length = rowByteWidth s * s.num .bh := by
  simp [packedRows_eq_map, packedRow, List.length_flatten, Function.comp_def, Nat.mul_comm]

theorem tokenText_of_not_last {s : State} {y j : Nat} (h : ¬ (y + 1 = s.num .bh ∧ j + 1 = rowByteWidth s)) :
    tokenText s y j = tokenOf (packedByte s y j) ++ [0x2C] := by
  rw [tokenText, if_neg h, hexToken_eq_tokenOf, asciiComma]

theorem tokenText_of_last {s : State} {y j : Nat} (hy : s.num .bh = y + 1) (hj : rowByteWidth s = j + 1) :
    tokenText s y j = tokenOf (packedByte s y j) := by
  rw [tokenText, if_pos ⟨hy.symm, hj.symm⟩, hexToken_eq_tokenOf, List.append_nil]

/-- The tokens of the first `n` bytes of a row, none of them the last of the text. -/
theorem flatMap_tokenText {s : State} {y n : Nat} (h : ∀ j < n, ¬ (y + 1 = s.num .bh ∧ j + 1 = rowByteWidth s)) :
    (List.range n).flatMap (fun j => tokenText s y j) = commaTokens ((List.range n).map (packedByte s y)) := by
  rw [commaTokens, List.flatMap_map]
  exact List.flatMap_congr fun j hj => tokenText_of_not_last (h j (List.mem_range.1 hj))

theorem rowText_of_not_last {s : State} {y : Nat} (hy : y + 1 ≠ s.num .bh) :
    rowText s y = commaTokens (packedRow s y) ++ [0x0A] := by
  rw [rowText, flatMap_tokenText fun _ _ h => hy h.1]
  rfl

section
variable {s : State} {m r : Nat} (hbh : s.num .bh = m + 1) (hrb : rowByteWidth s = r + 1)
include hbh hrb

theorem rowText_of_last :
    rowText s m = commaTokens ((List.range r).map (packedByte s m)) ++ tokenOf (packedByte s m r) ++ [0x0A] := by
  have hnot : ∀ j < r, ¬ (m + 1 = s.num .bh ∧ j + 1 = rowByteWidth s) := by omega
  rw [rowText, hrb, List.range_succ, List.flatMap_append, flatMap_tokenText hnot, List.flatMap_singleton,
    tokenText_of_last hbh hrb]
  rfl

/-- The packed rows of a raster that is not empty end in a last byte of a last row. -/
theorem packedRows_eq_concat :
    packedRows s =
      (List.range m).map (packedRow s) ++ [(List.range r).map (packedByte s m) ++ [packedByte s m r]] := by
  rw [packedRows_eq_map, hbh, List.range_succ, List.map_append, List.map_singleton, packedRow, hrb, List.range_succ,
    List.map_append, List.map_singleton]

theorem flatMap_rowText :
    (List.range (s.num .bh)).flatMap (fun y => rowText s y) =
      commaLines ((List.range m).map (packedRow s)) ++
        (commaTokens ((List.range r).map (packedByte s m)) ++ tokenOf (packedByte s m r) ++ [0x0A]) := by
  have hlines : (List.range m).flatMap (fun y => rowText s y) = commaLines ((List.range m).map (packedRow s)) := by
    rw [commaLines, List.flatMap_map]
    refine List.flatMap_congr fun y hy => rowText_of_not_last ?_
    have := List.mem_range.1 hy
    omega
  rw [hbh, List.range_succ, List.flatMap_append, hlines, List.flatMap_singleton, rowText_of_last hbh hrb]

end

/-- A raster that is not empty has a last row, and its rows a last byte. -/
theorem exists_last_of_nonempty {s : State} (h : ¬ (s.num .bw = 0 ∨ s.num .bh = 0)) :
    ∃ m r, s.num .bh = m + 1 ∧ rowByteWidth s = r + 1 := by
  refine ⟨s.num .bh - 1, rowByteWidth s - 1, ?_, ?_⟩
  · omega
  · unfold rowByteWidth ceil8
    omega

/-- The text of a raster that is not empty is the array literal of its packed rows (R140, R142). -/
theorem codeText_of_nonempty {s : State} (h : ¬ (s.num .bw = 0 ∨ s.num .bh = 0)) :
    codeText s = arrayText (packedRows s) := by
  obtain ⟨m, r, hbh, hrb⟩ := exists_last_of_nonempty h
  rw [codeText, if_pos (not_or.1 h), flatMap_rowText hbh hrb, packedRows_eq_concat hbh hrb, arrayText_concat]
  rfl

/-! ### ENCODE -/

/-- ENCODE is a success completion with the text over the old state. -/
theorem exec_encode_succeeds (s : State) :
    ∃ t, exec .encode s = .next t ∧ Answered 0 (codeText s) s t ∧ t.regs = s.regs ∧ SameStores s t :=
  complete_self 0 (codeText s) s

/-- Settles O38: the text is the five bytes of an empty raster or the array literal of the packed rows, and the raster
is kept. -/
theorem encodeEmitsTheArrayLiteral : Obligations.EncodeEmitsTheArrayLiteral := by
  refine ⟨decode_encode .encode, fun s => ?_⟩
  obtain ⟨t, hnext, hanswered, hregs, hstores⟩ := exec_encode_succeeds s
  refine ⟨t, codeText s, hnext, hanswered, hregs, hstores, ?_, _, rfl,
    (SameRaster.of_unchanged hregs hstores).codeText_eq⟩
  split_ifs with hempty
  · exact codeText_of_empty hempty
  · exact codeText_of_nonempty hempty

/-- Settles O39: the raster after reset is empty too. -/
theorem emptyRasterTextIsFiveBytes : Obligations.EmptyRasterTextIsFiveBytes := by
  have hfive {s : State} (hempty : s.num .bw = 0 ∨ s.num .bh = 0) :
      ∃ t, exec .encode s = .next t ∧ Answered 0 [0x7B, 0x0A, 0x7D, 0x3B, 0x0A] s t := by
    obtain ⟨t, hnext, hanswered, -⟩ := exec_encode_succeeds s
    exact ⟨t, hnext, codeText_of_empty hempty ▸ hanswered⟩
  obtain ⟨t, hnext, -, houtput, -⟩ := hfive (s := State.reset) (.inl rfl)
  exact ⟨fun s => hfive, t, hnext, houtput⟩

/-! ### The length of the text -/

/-- How many of these bytes have a token of one digit (R141, R148). -/
def shortCount (bs : List Byte) : Nat := (bs.filter fun b => decide (b.toNat < 16)).length

theorem shortCount_cons (b : Byte) (bs : List Byte) :
    shortCount (b :: bs) = (if b.toNat < 16 then 1 else 0) + shortCount bs := by
  by_cases hb : b.toNat < 16 <;> simp [shortCount, hb, Nat.add_comm]

theorem shortCount_append (bs cs : List Byte) : shortCount (bs ++ cs) = shortCount bs + shortCount cs := by
  rw [shortCount, List.filter_append, List.length_append]
  rfl

theorem shortCount_le (bs : List Byte) : shortCount bs ≤ bs.length := List.length_filter_le _ _

/-- A token with its comma has five bytes, four if it is of one digit. -/
theorem commaTokens_length (bs : List Byte) : (commaTokens bs).length + shortCount bs = 5 * bs.length := by
  induction bs with
  | nil => rfl
  | cons b bs ih =>
    have htoken := tokenOf_length b
    rw [commaTokens, List.flatMap_cons, List.length_append, List.length_append, List.length_singleton,
      shortCount_cons, List.length_cons, ← commaTokens]
    split_ifs at htoken ⊢ <;> omega

/-- Each line has one newline more. -/
theorem commaLines_length (rows : List (List Byte)) :
    (commaLines rows).length + shortCount rows.flatten = 5 * rows.flatten.length + rows.length := by
  induction rows with
  | nil => rfl
  | cons row rows ih =>
    have hrow := commaTokens_length row
    rw [commaLines, List.flatMap_cons, List.length_append, List.length_append, List.length_singleton,
      List.flatten_cons, shortCount_append, List.length_append, List.length_cons, ← commaLines]
    omega

theorem commaLines_concat (rows : List (List Byte)) (row : List Byte) (b : Byte) :
    commaLines (rows ++ [row ++ [b]]) = commaLines rows ++ (commaTokens row ++ tokenOf b ++ [0x2C] ++ [0x0A]) := by
  simp [commaLines, commaTokens]

/-- The text of a non-empty array is one comma shorter than its lines with all their commas, between the opening and
the closing line (R140, R142). -/
theorem arrayText_length_concat (rows : List (List Byte)) (row : List Byte) (b : Byte) :
    (arrayText (rows ++ [row ++ [b]])).length + 1 = 2 + (commaLines (rows ++ [row ++ [b]])).length + 3 := by
  rw [arrayText_concat, commaLines_concat]
  simp only [List.length_append, List.length_cons, List.length_nil]
  omega

/-- Per packed byte a token with its comma, per row a newline, and the two outer lines; less one for each token of one
digit and for the last comma. -/
theorem codeText_length_of_nonempty {s : State} (h : ¬ (s.num .bw = 0 ∨ s.num .bh = 0)) :
    (codeText s).length + 1 + shortCount (packedRows s).flatten =
      5 * (rowByteWidth s * s.num .bh) + s.num .bh + 5 := by
  obtain ⟨m, r, hbh, hrb⟩ := exists_last_of_nonempty h
  have htext : (arrayText (packedRows s)).length + 1 = 2 + (commaLines (packedRows s)).length + 3 := by
    rw [packedRows_eq_concat hbh hrb]
    exact arrayText_length_concat ..
  have hlines := commaLines_length (packedRows s)
  rw [packedRows_flatten_length, packedRows_length] at hlines
  rw [codeText_of_nonempty h]
  omega

/-- Settles O41: the formula of R148 is the length of the text, with the tokens of one digit set off. -/
theorem encodeOutputLength : Obligations.EncodeOutputLength := by
  intro s
  obtain ⟨t, hnext, ⟨-, houtput, -⟩, -⟩ := exec_encode_succeeds s
  refine ⟨t, hnext, ?_⟩
  rw [houtput]
  split_ifs with hempty
  · rw [codeText_of_empty hempty]
    rfl
  · intro n n1
    have hlength : (codeText s).length + 1 + n1 = 5 * n + s.num .bh + 5 := codeText_length_of_nonempty hempty
    have hcount : n1 ≤ n := (shortCount_le _).trans_eq (packedRows_flatten_length s)
    have hpos : 0 < n := by
      obtain ⟨m, r, hbh, hrb⟩ := exists_last_of_nonempty hempty
      exact Nat.mul_pos (r.succ_pos.trans_eq hrb.symm) (m.succ_pos.trans_eq hbh.symm)
    exact ⟨hcount, by omega⟩

end Sys2Proof.Machine
end

section
/-! PROOFS. Errors (spec/60_exceptions.md): the code a command reports, the words that are illegal, when the factor
underflows, and that a failed command leaves nothing but its flag in STATUS for the next one (O11, O12, O15, O28). -/

namespace Sys2Proof.Machine

/-! ### The code a command reports -/

/-- The outcome `o` of a command run from `s` is a next state with one response more, whose code is `code` (R77). -/
def ReportsCode (code : BitVec 8) (s : State) (o : Host.Outcome State Fault Refusal) : Prop :=
  ∃ t r, o = .next t ∧ t.responses = s.responses ++ [r] ∧ codeField r = code

theorem complete_reports {s u : State} (data : RegWord) (bytes : List Byte) (hu : u.responses = s.responses) :
    ReportsCode okCode s (complete data bytes u) :=
  ⟨_, _, rfl, congrArg (· ++ _) hu, codeField_responseWord okCode data⟩

theorem raise_reports (e : ErrorKind) (s : State) : ReportsCode (errorCode e) s (raise e s) :=
  ⟨_, _, rfl, rfl, codeField_responseWord (errorCode e) 0⟩

/-- An outcome reports one code. -/
theorem ReportsCode.unique {a b : BitVec 8} {s : State} {o : Host.Outcome State Fault Refusal}
    (ha : ReportsCode a s o) (hb : ReportsCode b s o) : a = b := by
  obtain ⟨t, r, rfl, hr, rfl⟩ := ha
  obtain ⟨_, q, ⟨⟩, hq, rfl⟩ := hb
  obtain rfl : r = q := by simpa using hr.symm.trans hq
  rfl

/-- A command that fails reports the code of its error (R160, R166). -/
theorem FailsWith.reports {e : ErrorKind} {i : Instr} {s : State} (h : FailsWith e i s) :
    ReportsCode (errorCode e) s (exec i s) := by
  obtain ⟨t, hnext, -, -, -, -, -, hresponses, -⟩ := h
  refine ⟨t, _, hnext, hresponses, ?_⟩
  cases e <;> rfl

/-- A command word is the error completion of one kind, or a success completion with the responses before it. -/
theorem runWord_errs_or_succeeds (c : CmdWord) (s : State) :
    (∃ e, e ≠ .decodeFailure ∧ runWord c s = raise e s) ∨
    (∃ u data bytes, runWord c s = complete data bytes u ∧ u.responses = s.responses) := by
  obtain ⟨i, -, hrun⟩ | ⟨why, -, hrun⟩ := runWord_cases c s
  · rw [hrun]
    obtain herr | ⟨u, data, bytes, hok, hsucc⟩ := exec_cases i s
    · exact .inl herr
    · exact .inr ⟨u, data, bytes, hok, hsucc.responses⟩
  · exact .inl ⟨_, by decide, hrun⟩

/-! ### The commands that cannot fail -/

/-- A success completion without data answers the response 0. -/
theorem complete_answers_zero {s u : State} (bytes : List Byte) (hu : u.responses = s.responses) :
    ∃ t, complete 0 bytes u = .next t ∧ t.responses = s.responses ++ [0] :=
  ⟨_, rfl, congrArg (· ++ _) hu⟩

/-- No image whose dimensions are registers has more pixels than the default capacity (R7). -/
theorem num_mul_num_le_default (s : State) (r q : Reg) : s.num r * s.num q ≤ 2 ^ 32 :=
  (Nat.mul_le_mul (s.num_lt r).le (s.num_lt q).le).trans_eq (by norm_num)

/-- RDREG of a register's number answers that register (R92). -/
theorem execRdreg_of_le {reg : BitVec 8} (h : reg.toNat ≤ 14) (s : State) :
    ∃ r, regNumber r = reg ∧ execRdreg reg s = complete (s.reg r) [] s := by
  obtain ⟨-, hnone⟩ | hanswers := execRdreg_cases reg s
  · omega
  · exact hanswers

/-- Settles O15: each of these commands is a success completion, TOBIN because its image fits the default capacity. -/
theorem commandsThatCannotFail : Obligations.CommandsThatCannotFail := by
  refine fun s => ⟨fun i hi => ?_, fun reg hreg => ?_, fun hparams => ?_⟩
  · simp only [List.mem_cons, List.not_mem_nil, or_false] at hi
    rcases hi with rfl | rfl | rfl | rfl | rfl <;> exact complete_answers_zero _ rfl
  · obtain ⟨r, -, hexec⟩ := execRdreg_of_le hreg s
    rw [exec, hexec]
    exact complete_reports (s.reg r) [] rfl
  · have hcap : s.num .srcw * s.num .srch ≤ s.params.bitsCap := by
      rw [hparams]
      exact num_mul_num_le_default s .srcw .srch
    rw [exec_tobin_of_fits hcap]
    exact complete_answers_zero [] (putRaster_surroundings s).1

/-! ### FactorUnderflow -/

/-- With a positive magnification limit the factor is 0 exactly when the image is wider or taller than the envelope
(R103, R164). -/
theorem scaleFactor_eq_zero_iff {s : State} {w h : Nat} (hw : 0 < w) (hh : 0 < h) (hmaxf : 0 < s.num .maxf) :
    scaleFactor s w h = 0 ↔ s.num .maxw < w ∨ s.num .maxh < h := by
  simp only [scaleFactor, Nat.min_eq_zero_iff, Nat.div_eq_zero_iff, hw.ne', hh.ne', hmaxf.ne', false_or]

/-- A scale operation without a zero input reports FactorUnderflow exactly when its factor is 0 (R164, R167). -/
theorem failsWith_factorUnderflow_iff {i : Instr} {w h : Nat} {pix : Nat → Nat → Nat → Pixel} {s : State}
    (hexec : exec i s = scale w h pix s) (hnz : ¬ ZeroInput s w h) :
    FailsWith .factorUnderflow i s ↔ scaleFactor s w h = 0 := by
  have hcode {code : BitVec 8} (hne : errorCode .factorUnderflow ≠ code) (hr : ReportsCode code s (scale w h pix s)) :
      ¬ FailsWith .factorUnderflow i s := fun hfails => hne (hfails.reports.unique (hexec ▸ hr))
  obtain ⟨hz, -⟩ | ⟨-, hf, hscale⟩ | ⟨-, hf, -, hscale⟩ | ⟨-, hf, -, hscale⟩ := scale_cases w h pix s
  · exact absurd hz hnz
  · exact iff_of_true (failsWith_of_exec_eq_raise (by decide) (hexec.trans hscale)) hf
  · exact iff_of_false (hcode (by decide) (hscale ▸ raise_reports .capacityExceeded s)) hf
  · exact iff_of_false (hcode (by decide) (hscale ▸ complete_reports 0 [] rfl)) hf

/-- Settles O28: both commands are a scale operation, whose factor decides between FactorUnderflow and the rest. -/
theorem factorUnderflowsExactlyWhenTheImageIsTooLarge :
    Obligations.FactorUnderflowsExactlyWhenTheImageIsTooLarge := by
  intro s i w h hi hw hh hmaxw hmaxh hmaxf
  have hzero := scaleFactor_eq_zero_iff hw hh hmaxf
  have hnz : ¬ ZeroInput s w h := by simp only [ZeroInput]; omega
  refine ⟨hzero, ?_⟩
  obtain ⟨rfl, rfl, rfl⟩ | ⟨rfl, rfl, rfl⟩ := hi
  · exact (failsWith_factorUnderflow_iff rfl hnz).trans hzero
  · exact (failsWith_factorUnderflow_iff (exec_scaleb_eq_scale s) hnz).trans hzero

/-! ### The illegal words -/

/-- An opcode of the opcode map is WRREG's, RDREG's, or that of a format-Z command (R74). -/
theorem eq_or_formatZ_of_mem_knownOpcodes :
    ∀ n ∈ knownOpcodes, n = 0x01 ∨ n = 0x02 ∨ ∃ p ∈ formatZRows, n = p.1 := by decide

theorem wellFormed_of_formatZ : ∀ p ∈ formatZRows, p.2.WellFormed := by decide

/-- With a format-Z opcode only item 2 of R76 can apply. -/
theorem isIllegalCase_formatZ_iff {p : Nat × Instr} (hp : p ∈ formatZRows) {reg imm operand : Nat} :
    IsIllegalCase p.1 reg imm operand ↔ operand ≠ 0 := by
  simp only [formatZRows, List.mem_cons, List.not_mem_nil, or_false] at hp
  rcases hp with rfl | rfl | rfl | rfl | rfl | rfl | rfl | rfl <;> simp [IsIllegalCase]

/-- With RDREG's opcode only items 3 and 4 of R76 can apply. -/
theorem isIllegalCase_rdreg_iff {reg imm operand : Nat} :
    IsIllegalCase 0x02 reg imm operand ↔ imm ≠ 0 ∨ 15 ≤ reg := by simp [IsIllegalCase]

/-- With WRREG's opcode only items 4 to 7 of R76 can apply. -/
theorem isIllegalCase_wrreg_iff {reg imm operand : Nat} :
    IsIllegalCase 0x01 reg imm operand ↔ 6 < reg ∨ (reg = 5 ∧ 255 < imm) ∨ (reg = 6 ∧ imm / 4 ≠ 0) := by
  simp [IsIllegalCase]
  omega

/-- The 24 operand bits are zero exactly when both operand fields are (R71). -/
theorem toNat_operandBits_ne_zero_iff (c : CmdWord) :
    (c.extractLsb' 0 24).toNat ≠ 0 ↔ regField c ≠ 0 ∨ immField c ≠ 0 := by
  rw [operandBits_eq_append, BitVec.toNat_append, ne_eq, Nat.or_eq_zero_iff, ← BitVec.toNat_ne_iff_ne,
    ← BitVec.toNat_ne_iff_ne]
  simp [Nat.shiftLeft_eq, imp_iff_not_or]

/-- The reserved bits of CTRL, as the quotient of a value by 4 (R27). -/
theorem toNat_div_four_ne_zero_iff (v : RegWord) : v.toNat / 4 ≠ 0 ↔ v.extractLsb' 2 14 ≠ 0 := by
  have hvalue : (v.extractLsb' 2 14).toNat = v.toNat / 4 := by
    rw [BitVec.extractLsb'_toNat, Nat.shiftRight_eq_div_pow]
    exact Nat.mod_eq_of_lt (Nat.div_lt_of_lt_mul v.isLt)
  rw [← hvalue]
  exact BitVec.toNat_ne_iff_ne (y := 0)

/-- The word decodes to no permitted command: to none at all, or to one that is not permitted. -/
def NotPermitted (c : CmdWord) : Prop := ∀ i, decode c = .command i → i.wellFormed = false

theorem notPermitted_of_illegal {c : CmdWord} (h : ∃ why, decode c = .illegal why) : NotPermitted c := by
  obtain ⟨why, hwhy⟩ := h
  intro i hi
  cases hwhy.symm.trans hi

theorem notPermitted_iff_of_command {c : CmdWord} {i : Instr} (h : decode c = .command i) :
    NotPermitted c ↔ i.wellFormed = false := by
  simp [NotPermitted, h]

theorem isIllegalWord_iff_fields (c : CmdWord) : IsIllegalWord c ↔
    IsIllegalCase (opField c).toNat (regField c).toNat (immField c).toNat (c.extractLsb' 0 24).toNat := Iff.rfl

theorem isIllegalWord_iff_of_wrreg_opcode {c : CmdWord} (hop : (opField c).toNat = 0x01) :
    IsIllegalWord c ↔ NotPermitted c := by
  rw [isIllegalWord_iff_fields, hop, isIllegalCase_wrreg_iff, toNat_div_four_ne_zero_iff,
    notPermitted_iff_of_command (decode_of_wrreg_opcode hop), wellFormed_wrreg_eq_false_iff]

theorem isIllegalWord_iff_of_rdreg_opcode {c : CmdWord} (hop : (opField c).toNat = 0x02) :
    IsIllegalWord c ↔ NotPermitted c := by
  have hdecode := decodeR_spec c
  rw [← decode_of_rdreg_opcode hop] at hdecode
  rw [isIllegalWord_iff_fields, hop, isIllegalCase_rdreg_iff]
  split_ifs at hdecode with himm
  · exact iff_of_true (.inl (BitVec.toNat_ne_iff_ne.2 himm)) (notPermitted_of_illegal hdecode)
  · rw [notPermitted_iff_of_command hdecode, not_ne_iff.1 himm]
    simp [Instr.wellFormed, Nat.lt_iff_add_one_le]

theorem isIllegalWord_iff_of_formatZ {c : CmdWord} {p : Nat × Instr} (hp : p ∈ formatZRows)
    (hop : (opField c).toNat = p.1) : IsIllegalWord c ↔ NotPermitted c := by
  have hdecode := decodeZ_spec p.2 c
  rw [← decode_of_formatZ hp hop] at hdecode
  rw [isIllegalWord_iff_fields, hop, isIllegalCase_formatZ_iff hp, toNat_operandBits_ne_zero_iff]
  split_ifs at hdecode with hoperand
  · exact iff_of_true hoperand (notPermitted_of_illegal hdecode)
  · rw [notPermitted_iff_of_command hdecode, wellFormed_of_formatZ p hp]
    exact iff_of_false hoperand nofun

/-- The seven cases of R76 are the words that decode to no permitted command (R163). -/
theorem isIllegalWord_iff_notPermitted (c : CmdWord) : IsIllegalWord c ↔ NotPermitted c := by
  by_cases hknown : (opField c).toNat ∈ knownOpcodes
  · obtain hop | hop | ⟨p, hp, hop⟩ := eq_or_formatZ_of_mem_knownOpcodes _ hknown
    · exact isIllegalWord_iff_of_wrreg_opcode hop
    · exact isIllegalWord_iff_of_rdreg_opcode hop
    · exact isIllegalWord_iff_of_formatZ hp hop
  · exact iff_of_true (.inl hknown) (notPermitted_of_illegal ⟨_, decode_of_unknown_opcode hknown⟩)

/-- A scale operation reports a code other than IllegalCommand. -/
theorem scale_reports (w h : Nat) (pix : Nat → Nat → Nat → Pixel) (s : State) :
    ∃ code, code ≠ errorCode .illegalCommand ∧ ReportsCode code s (scale w h pix s) := by
  obtain ⟨-, hscale⟩ | ⟨-, -, hscale⟩ | ⟨-, -, -, hscale⟩ | ⟨-, -, -, hscale⟩ := scale_cases w h pix s
  · exact ⟨_, by decide, hscale ▸ raise_reports .invalidDimension s⟩
  · exact ⟨_, by decide, hscale ▸ raise_reports .factorUnderflow s⟩
  · exact ⟨_, by decide, hscale ▸ raise_reports .capacityExceeded s⟩
  · exact ⟨_, by decide, hscale ▸ complete_reports 0 [] rfl⟩

/-- A permitted command executes and reports a code other than IllegalCommand (R163). -/
theorem exec_reports_of_wellFormed {i : Instr} (hi : i.WellFormed) (s : State) :
    ∃ code, code ≠ errorCode .illegalCommand ∧ ReportsCode code s (exec i s) := by
  have hok {u : State} (data : RegWord) (bytes : List Byte) (hu : u.responses = s.responses) :
      ∃ code, code ≠ errorCode .illegalCommand ∧ ReportsCode code s (complete data bytes u) :=
    ⟨okCode, by decide, complete_reports data bytes hu⟩
  cases i with
  | nop | clrerr | sreset | pack | encode => exact hok _ _ rfl
  | wrreg reg imm =>
    obtain ⟨r, -, -, hexec⟩ := execWrreg_of_wellFormed hi s
    rw [exec, hexec]
    exact hok _ _ rfl
  | rdreg reg =>
    obtain ⟨r, -, hexec⟩ := execRdreg_of_le (of_decide_eq_true hi) s
    rw [exec, hexec]
    exact hok _ _ rfl
  | scalep | scaleb => exact scale_reports ..
  | tobin =>
    obtain ⟨-, hexec⟩ | ⟨-, hexec⟩ := execTobin_cases s
    · exact ⟨_, by decide, hexec ▸ raise_reports .capacityExceeded s⟩
    · rw [exec, hexec]
      exact hok _ _ rfl

/-- Settles O12: an illegal word is not decoded or not permitted when it executes, and any other is a permitted
command. -/
theorem illegalWordsAreExactlyTheSevenCases : Obligations.IllegalWordsAreExactlyTheSevenCases := by
  intro c s
  rw [isIllegalWord_iff_notPermitted]
  refine ⟨fun hillegal => ?_, fun hlegal => ?_⟩
  · obtain ⟨i, hdecode, hrun⟩ | ⟨why, hdecode, -⟩ := runWord_cases c s
    · rw [hrun]
      exact exec_fails_of_not_wellFormed (hillegal i hdecode) s
    · exact runWord_fails_of_illegal hdecode s
  · simp only [NotPermitted, not_forall] at hlegal
    obtain ⟨i, hdecode, hpermitted⟩ := hlegal
    have hwell : i.WellFormed := Bool.eq_true_of_not_eq_false hpermitted
    obtain ⟨code, hcode, t, r, hnext, hresponses, rfl⟩ := exec_reports_of_wellFormed hwell s
    exact ⟨i, t, r, hdecode, hwell, hnext, hresponses, hcode⟩

/-! ### The next command after a failed one -/

/-- The two states differ at most in STATUS, in the responses so far and in the last output. -/
structure SameButStatus (s t : State) : Prop where
  regs : SameRegsBut [.status] s t
  stores : SameStores s t
  out : t.out = s.out
  around : SameSurroundings s t

section
variable {s t : State} (h : SameButStatus s t)
include h

theorem SameButStatus.reg_eq {r : Reg} (hr : r ≠ .status) : t.reg r = s.reg r :=
  h.regs r (by simpa using hr)

theorem SameButStatus.num_eq {r : Reg} (hr : r ≠ .status) : t.num r = s.num r :=
  congrArg BitVec.toNat (h.reg_eq hr)

theorem SameButStatus.params_eq : t.params = s.params := by
  obtain ⟨-, -, -, -, hparams⟩ := h.around
  exact hparams

/-- The source port answers both states alike (R52). -/
theorem SameButStatus.srcRead_eq (k x y : Nat) : t.srcRead k x y = s.srcRead k x y := by
  obtain ⟨-, hsrc, -, hdraws, -⟩ := h.around
  rw [State.srcRead, State.srcRead, hsrc, hdraws]

theorem SameButStatus.sameRaster : SameRaster t s :=
  ⟨h.reg_eq (by decide), h.reg_eq (by decide), h.stores.1⟩

theorem SameButStatus.bit_eq (x y : Nat) : t.bit x y = s.bit x y := by
  rw [State.bit, State.bit, h.stores.1, h.num_eq (by decide)]

theorem SameButStatus.binarized_eq : binarized t = binarized s :=
  binarized_congr (fun r hr => h.reg_eq (by rintro rfl; simp at hr)) fun k x y _ _ => h.srcRead_eq k x y

theorem SameButStatus.scaleFactor_eq (width height : Nat) :
    scaleFactor t width height = scaleFactor s width height := by
  rw [scaleFactor, scaleFactor, h.num_eq (by decide), h.num_eq (by decide), h.num_eq (by decide)]

/-! The updates of the state keep the relation. -/

theorem SameButStatus.setReg (r : Reg) (v : RegWord) : SameButStatus (s.setReg r v) (t.setReg r v) := by
  refine ⟨fun q hq => ?_, h.stores, h.out, h.around⟩
  by_cases hqr : q = r
  · rw [hqr, State.reg_setReg_same, State.reg_setReg_same]
  · rw [State.reg_setReg_other _ _ hqr, State.reg_setReg_other _ _ hqr, h.regs q hq]

/-- STATUS may be set to two different values. -/
theorem SameButStatus.setReg_status (v v' : RegWord) :
    SameButStatus (s.setReg .status v) (t.setReg .status v') := by
  refine ⟨fun q hq => ?_, h.stores, h.out, h.around⟩
  have hne : q ≠ .status := by simpa using hq
  rw [State.reg_setReg_other _ _ hne, State.reg_setReg_other _ _ hne, h.regs q hq]

theorem SameButStatus.setBits (l : List Bool) : SameButStatus (s.setBits l) (t.setBits l) :=
  ⟨h.regs, ⟨rfl, h.stores.2⟩, h.out, h.around⟩

theorem SameButStatus.setDst (l : List Pixel) : SameButStatus (s.setDst l) (t.setDst l) :=
  ⟨h.regs, ⟨h.stores.1, rfl⟩, h.out, h.around⟩

theorem SameButStatus.resetBlock : SameButStatus s.resetBlock t.resetBlock :=
  ⟨fun _ _ => rfl, ⟨rfl, rfl⟩, h.out, h.around⟩

theorem SameButStatus.putRaster : SameButStatus s.putRaster t.putRaster := by
  have hpol : t.ctrlPol = s.ctrlPol := congrArg (BitVec.getLsbD · 0) (h.reg_eq (by decide))
  rw [State.putRaster, State.putRaster, h.binarized_eq, h.reg_eq (r := .srcw) (by decide),
    h.reg_eq (r := .srch) (by decide), h.num_eq (by decide), hpol]
  exact ((((h.setBits _).setReg _ _).setReg _ _).setReg _ _).setReg _ _

theorem SameButStatus.putScaled (f width height : Nat) (pix : Nat → Nat → Nat → Pixel) :
    SameButStatus (s.putScaled f width height pix) (t.putScaled f width height pix) :=
  (((h.setDst _).setReg _ _).setReg _ _).setReg _ _

end

/-- Two runs, from `s` and from `t`, end alike but for STATUS: with the same output, and the same response where
`same` holds. -/
def EndAlike (same : Prop) (s t : State) (o o' : Host.Outcome State Fault Refusal) : Prop :=
  ∃ v u r r', o = .next v ∧ o' = .next u ∧ SameButStatus v u ∧ u.output = v.output ∧
    v.responses = s.responses ++ [r] ∧ u.responses = t.responses ++ [r'] ∧ (same → r' = r)

theorem complete_endAlike {same : Prop} {s t s' t' : State} {data data' : RegWord} {bytes bytes' : List Byte}
    (h : SameButStatus s' t') (hs : s'.responses = s.responses) (ht : t'.responses = t.responses)
    (hdata : same → data' = data) (hbytes : bytes' = bytes) :
    EndAlike same s t (complete data bytes s') (complete data' bytes' t') := by
  subst hbytes
  exact ⟨_, _, _, _, rfl, rfl, ⟨h.regs, h.stores, congrArg (· ++ bytes') h.out, h.around⟩, rfl,
    congrArg (· ++ _) hs, congrArg (· ++ _) ht, fun hsame => congrArg _ (hdata hsame)⟩

theorem raise_endAlike {same : Prop} {s t : State} (h : SameButStatus s t) (e : ErrorKind) :
    EndAlike same s t (raise e s) (raise e t) := by
  have hset := h.setReg_status (setErrorFlag (s.reg .status) e) (setErrorFlag (t.reg .status) e)
  exact ⟨_, _, _, _, rfl, rfl, ⟨hset.regs, hset.stores, congrArg (· ++ []) hset.out, hset.around⟩, rfl, rfl, rfl,
    fun _ => rfl⟩

theorem execWrreg_endAlike {same : Prop} {s t : State} (h : SameButStatus s t) (reg : BitVec 8) (imm : RegWord) :
    EndAlike same s t (execWrreg reg imm s) (execWrreg reg imm t) := by
  unfold execWrreg
  cases regOfNumber reg with
  | none => exact raise_endAlike h _
  | some r =>
    dsimp only
    split_ifs
    · exact complete_endAlike (h.setReg _ _) rfl rfl (fun _ => rfl) rfl
    · exact raise_endAlike h _

/-- RDREG of any register but STATUS answers alike. -/
theorem execRdreg_endAlike {s t : State} (h : SameButStatus s t) (reg : BitVec 8) :
    EndAlike (.rdreg reg ≠ Instr.rdreg 7) s t (execRdreg reg s) (execRdreg reg t) := by
  unfold execRdreg
  cases hr : regOfNumber reg with
  | none => exact raise_endAlike h _
  | some r =>
    refine complete_endAlike h rfl rfl (fun hne => h.reg_eq ?_) rfl
    rintro rfl
    exact hne (congrArg Instr.rdreg (regOfNumber_eq_some.1 hr).symm)

/-- Two images of the same size and pixels scale alike. -/
theorem scale_endAlike {same : Prop} {s t : State} (h : SameButStatus s t) {width width' height height' : Nat}
    {pix pix' : Nat → Nat → Nat → Pixel} (hwidth : width' = width) (hheight : height' = height)
    (hpix : pix' = pix) :
    EndAlike same s t (scale width height pix s) (scale width' height' pix' t) := by
  subst hwidth hheight hpix
  rw [scale, scale, h.num_eq (by decide), h.num_eq (by decide), h.num_eq (by decide), h.params_eq, h.scaleFactor_eq]
  split_ifs
  · exact raise_endAlike h _
  · exact raise_endAlike h _
  · exact raise_endAlike h _
  · exact complete_endAlike (h.putScaled _ _ _ _) rfl rfl (fun _ => rfl) rfl

theorem execTobin_endAlike {same : Prop} {s t : State} (h : SameButStatus s t) :
    EndAlike same s t (execTobin s) (execTobin t) := by
  rw [execTobin, execTobin, h.num_eq (by decide), h.num_eq (by decide), h.params_eq]
  split_ifs
  · exact raise_endAlike h _
  · exact complete_endAlike h.putRaster rfl rfl (fun _ => rfl) rfl

/-- No command depends on STATUS, but for the response of RDREG STATUS (R28). -/
theorem exec_endAlike {s t : State} (h : SameButStatus s t) (i : Instr) :
    EndAlike (i ≠ .rdreg 7) s t (exec i s) (exec i t) := by
  cases i with
  | nop => exact complete_endAlike h rfl rfl (fun _ => rfl) rfl
  | wrreg reg imm => exact execWrreg_endAlike h reg imm
  | rdreg reg => exact execRdreg_endAlike h reg
  | clrerr => exact complete_endAlike (h.setReg _ _) rfl rfl (fun _ => rfl) rfl
  | sreset => exact complete_endAlike h.resetBlock rfl rfl (fun _ => rfl) rfl
  | scalep =>
    exact scale_endAlike h (h.num_eq (by decide)) (h.num_eq (by decide)) (by simp only [h.srcRead_eq])
  | scaleb =>
    have hpol : t.rasterPol = s.rasterPol := congrArg (BitVec.getLsbD · 0) (h.reg_eq (by decide))
    exact scale_endAlike h (h.num_eq (by decide)) (h.num_eq (by decide)) (by simp only [hpol, h.bit_eq])
  | tobin => exact execTobin_endAlike h
  | pack => exact complete_endAlike h rfl rfl (fun _ => rfl) h.sameRaster.packed_eq
  | encode => exact complete_endAlike h rfl rfl (fun _ => rfl) h.sameRaster.codeText_eq

theorem runWord_endAlike {s t : State} (h : SameButStatus s t) (c : CmdWord) :
    EndAlike (decode c ≠ .command (.rdreg 7)) s t (runWord c s) (runWord c t) := by
  unfold runWord
  cases decode c with
  | command i => simpa using exec_endAlike h i
  | illegal why => exact raise_endAlike h _

theorem ErrorCompletion.sameButStatus {e : ErrorKind} {s t : State} (h : ErrorCompletion e s t) :
    SameButStatus s t := by
  obtain ⟨-, hregs, hstores, hout, -, -, haround⟩ := h
  exact ⟨hregs, hstores, hout, haround⟩

/-- Settles O11: a word that reports an error is its error completion, which changes STATUS alone, and no command
depends on STATUS. -/
theorem failedCommandChangesOnlyItsStatusFlag : Obligations.FailedCommandChangesOnlyItsStatusFlag := by
  intro c s t r hrun hresponses hcode
  have hreports : ReportsCode (codeField r) s (runWord c s) := ⟨t, r, hrun, hresponses, rfl⟩
  obtain ⟨e, he, herr⟩ | ⟨u, data, bytes, hok, hu⟩ := runWord_errs_or_succeeds c s
  · rw [herr] at hrun hreports
    obtain ⟨_, hnext, hcompletion⟩ := raise_completes he s
    cases hrun.symm.trans hnext
    refine ⟨e, he, (raise_reports e s).unique hreports, hcompletion, fun c' => ?_⟩
    obtain ⟨v, u, q, q', hv, hu, hsame, houtput, hvr, hur, hq⟩ := runWord_endAlike hcompletion.sameButStatus c'
    refine ⟨u, v, hu, hv, hsame.regs, hsame.stores, hsame.out, houtput, fun hne => ?_⟩
    rw [hvr, hur, hq hne, List.getLast?_concat, List.getLast?_concat]
  · rw [hok] at hreports
    exact absurd (hreports.unique (complete_reports data bytes hu)) hcode

end Sys2Proof.Machine
end

section
/-! PROOFS. What each command does straight after reset (R188, O24). -/

namespace Sys2Proof.Machine

/-! ### The commands that leave the reset state as it is -/

/-- TOBIN's raster of the empty source window is the raster of the reset state: no bit, and every register of its
geometry 0 (R42, R126). -/
theorem putRaster_reset : State.reset.putRaster = State.reset := by
  rw [State.putRaster, binarized_of_empty (.inl rfl)]
  rfl

/-- Straight after reset these commands succeed with no data and no byte, and change nothing (R188). -/
theorem exec_reset_eq_complete {i : Instr} (hi : i ∈ [Instr.nop, .clrerr, .sreset, .tobin, .pack]) :
    exec i State.reset = complete 0 [] State.reset := by
  simp only [List.mem_cons, List.not_mem_nil, or_false] at hi
  obtain rfl | rfl | rfl | rfl | rfl := hi
  · rfl
  · rfl
  · rfl
  · rw [exec_tobin_of_fits (Nat.zero_le _), putRaster_reset]
  · exact congrArg (complete 0 · State.reset) (packed_of_empty (.inl rfl))

/-! ### RDREG -/

/-- The response to RDREG is the register's value after reset (R42, R77). -/
theorem zeroExtend_reg_reset (r : Reg) : (State.reset.reg r).zeroExtend 32 =
    if r = .maxw then 500 else if r = .maxh then 300 else if r = .maxf then 5
      else if r = .thresh then 128 else 0 := by
  cases r <;> rfl

/-- RDREG of a register answers its value and changes no register and no store (R92). -/
theorem exec_rdreg_regNumber_succeeds (r : Reg) (s : State) :
    ∃ t, exec (.rdreg (regNumber r)) s = .next t ∧ Answered (s.reg r) [] s t ∧ t.regs = s.regs ∧ SameStores s t := by
  rw [exec, execRdreg, regOfNumber_eq_some.2 rfl]
  exact complete_self (s.reg r) [] s

/-! ### The scale commands -/

/-- A command that scales an image without columns or without rows fails with InvalidDimension (R102). -/
theorem failsWith_invalidDimension_of_empty {i : Instr} {w h : Nat} {pix : Nat → Nat → Nat → Pixel} {s : State}
    (hscales : ScalesImage i w h pix s) (hempty : w = 0 ∨ h = 0) : FailsWith .invalidDimension i s := by
  rwa [ScalesImage, if_pos (hempty.imp_right .inl)] at hscales

/-! ### The table of R188 -/

/-- Settles O24, row by row of R188: the source window and the raster are empty after reset. -/
theorem everyCommandStraightAfterReset : Obligations.EveryCommandStraightAfterReset := by
  refine ⟨fun i hi => ⟨_, exec_reset_eq_complete hi, rfl, rfl, rfl, rfl, rfl⟩, fun buffer => ?tobin,
    fun r => ?rdreg, failsWith_invalidDimension_of_empty (scalepScalesTheSourceImage.2 State.reset) (.inl rfl),
    failsWith_invalidDimension_of_empty (scalebScalesTheRaster.2 State.reset) (.inl rfl), ?encode⟩
  case tobin =>
    obtain ⟨t, -, -, hnext, -, -, -, -, -, -, hbuffer, -⟩ := emptyImageGivesTheEmptyRaster State.reset (.inl rfl)
    exact ⟨t, hnext, hbuffer buffer⟩
  case rdreg =>
    obtain ⟨t, hnext, ⟨hresponses, -⟩, hregs, -⟩ := exec_rdreg_regNumber_succeeds r State.reset
    rw [zeroExtend_reg_reset] at hresponses
    exact ⟨t, hnext, hregs, hresponses⟩
  case encode =>
    obtain ⟨t, hnext, ⟨hresponses, -, hout, -⟩, hregs, -⟩ := exec_encode_succeeds State.reset
    rw [codeText_of_empty (.inl rfl)] at hout
    exact ⟨t, hnext, hregs, hresponses, hout⟩

end Sys2Proof.Machine
end

section
/-! PROOFS. The opcode map in both directions, its rows against the decoder, and the words of the assembler's table by
its arithmetic (spec/30_encoding.md, O1, O3, O4). -/

namespace Sys2Proof.Machine

/-! ### The round trip of decoder and encoder -/

theorem encode_of_formatZ : ∀ p ∈ formatZRows, encode p.2 = commandWord (BitVec.ofNat 8 p.1) 0 0 := by decide

/-- A word is put together from what its three fields hold. -/
theorem eq_commandWord {c : CmdWord} {op reg : BitVec 8} {imm : RegWord} (hop : opField c = op)
    (hreg : regField c = reg) (himm : immField c = imm) : c = commandWord op reg imm := by
  rw [← hop, ← hreg, ← himm, commandWord_fields]

/-- A word that decodes to a command is the word of that command: no operand bit is dropped (R72, R74). -/
theorem eq_encode_of_decode {c : CmdWord} {i : Instr} (h : decode c = .command i) : c = encode i := by
  by_cases hknown : (opField c).toNat ∈ knownOpcodes
  · obtain hop | hop | ⟨p, hp, hop⟩ := eq_or_formatZ_of_mem_knownOpcodes _ hknown
    · rw [decode_of_wrreg_opcode hop] at h
      cases h
      exact eq_commandWord (opField_eq_ofNat hop) rfl rfl
    · rw [decode_of_rdreg_opcode hop] at h
      obtain ⟨rfl, himm⟩ := decodeR_eq_command h
      exact eq_commandWord (opField_eq_ofNat hop) rfl himm
    · rw [decode_of_formatZ hp hop] at h
      obtain ⟨rfl, hreg, himm⟩ := decodeZ_eq_command h
      rw [encode_of_formatZ p hp]
      exact eq_commandWord (opField_eq_ofNat hop) hreg himm
  · rw [decode_of_unknown_opcode hknown] at h
    cases h

theorem decode_eq_command_iff {c : CmdWord} {i : Instr} : decode c = .command i ↔ c = encode i :=
  ⟨eq_encode_of_decode, fun h => h ▸ decode_encode i⟩

/-- Settles O1: the decoder undoes the encoder, and a word that decodes is put together from the fields decoded. -/
theorem wordDecodesExactlyToTheCommandItEncodes : Obligations.WordDecodesExactlyToTheCommandItEncodes :=
  fun _ _ => decode_eq_command_iff

/-! ### The rows of the opcode table -/

/-- The word of every command is covered by the row of the command (R72). -/
theorem tableRow_covers_encode (i : Instr) : (tableRow i).covers (encode i) = true := by
  cases i with
  | wrreg reg imm => exact Laws.TableRow.wrreg reg imm
  | rdreg reg => exact Laws.TableRow.rdreg reg
  | nop | clrerr | sreset | scalep | scaleb | tobin | pack | encode => rfl

/-- A mask that keeps the whole opcode leaves it readable in the masked word. -/
theorem opField_and {c mask : CmdWord} (h : opField mask = BitVec.allOnes 8) : opField (c &&& mask) = opField c := by
  rw [opField, BitVec.extractLsb'_and, ← opField, ← opField, h, BitVec.and_allOnes]

/-- A mask that keeps the whole immediate leaves it readable in the masked word. -/
theorem immField_and {c mask : CmdWord} (h : immField mask = BitVec.allOnes 16) :
    immField (c &&& mask) = immField c := by
  rw [immField, BitVec.extractLsb'_and, ← immField, ← immField, h, BitVec.and_allOnes]

/-- The row of a command without operands covers the word of that command alone. -/
theorem eq_encode_of_covers {i : Instr} (hrow : tableRow i = ⟨encode i, BitVec.allOnes 32⟩) {c : CmdWord}
    (h : (tableRow i).covers c = true) : c = encode i := by
  rw [hrow] at h
  exact BitVec.and_allOnes.symm.trans (eq_of_beq h)

/-- WRREG's row covers the words with its opcode alone. -/
theorem exists_wrreg_of_covers {c : CmdWord} (h : (tableRow (.wrreg 0 0)).covers c = true) :
    ∃ reg imm, c = encode (.wrreg reg imm) := by
  have hop : opField c = 0x01 := by
    rw [← opField_and (mask := 0xFF000000) (by decide), show c &&& 0xFF000000 = 0x01000000 from eq_of_beq h]
    decide
  exact ⟨_, _, eq_commandWord hop rfl rfl⟩

/-- RDREG's row covers the words with its opcode and a zero immediate alone. -/
theorem exists_rdreg_of_covers {c : CmdWord} (h : (tableRow (.rdreg 0)).covers c = true) :
    ∃ reg, c = encode (.rdreg reg) := by
  have hmasked : c &&& 0xFF00FFFF = 0x02000000 := eq_of_beq h
  have hop : opField c = 0x02 := by
    rw [← opField_and (mask := 0xFF00FFFF) (by decide), hmasked]
    decide
  have himm : immField c = 0 := by
    rw [← immField_and (mask := 0xFF00FFFF) (by decide), hmasked]
    decide
  exact ⟨_, eq_commandWord hop rfl himm⟩

/-- A row of the table covers exactly the words of its commands (R72). -/
theorem covers_iff_exists_encode {r : Row} (hr : r ∈ tableRows) (c : CmdWord) :
    r.covers c = true ↔ ∃ i, c = encode i ∧ tableRow i = r := by
  constructor
  · intro h
    simp only [tableRows, List.mem_cons, List.not_mem_nil, or_false] at hr
    obtain rfl | rfl | rfl | rfl | rfl | rfl | rfl | rfl | rfl | rfl := hr
    case inr.inl =>
      obtain ⟨reg, imm, hc⟩ := exists_wrreg_of_covers h
      exact ⟨_, hc, rfl⟩
    case inr.inr.inl =>
      obtain ⟨reg, hc⟩ := exists_rdreg_of_covers h
      exact ⟨_, hc, rfl⟩
    all_goals exact ⟨_, eq_encode_of_covers rfl h, rfl⟩
  · rintro ⟨i, rfl, rfl⟩
    exact tableRow_covers_encode i

/-- Settles O3: a row covers the words of its commands, and a word is the word of one command. -/
theorem tableRowsAgreeWithTheDecoder : Obligations.TableRowsAgreeWithTheDecoder := by
  intro c
  have hcovers {r : Row} (hr : r ∈ tableRows) :
      r.covers c = true ↔ ∃ i, decode c = .command i ∧ tableRow i = r := by
    simp only [covers_iff_exists_encode hr, decode_eq_command_iff]
  refine ⟨fun r hr => hcovers hr, fun r₁ h₁ r₂ h₂ hc₁ hc₂ => ?_⟩
  obtain ⟨i, hi, rfl⟩ := (hcovers h₁).1 hc₁
  obtain ⟨j, hj, rfl⟩ := (hcovers h₂).1 hc₂
  obtain rfl : i = j := by simpa using hi.symm.trans hj
  rfl

/-! ### The words of the assembler's table -/

/-- The opcode and the register number of a word, each at its place, as the sum R78 writes. -/
theorem ofNat_op_reg_eq_add (op : Nat) (reg : BitVec 8) :
    BitVec.ofNat 32 (op * 2 ^ 24 + reg.toNat * 2 ^ 16) =
      BitVec.ofNat 32 (op * 2 ^ 24) + (reg.zeroExtend 32 <<< 16) := by
  have hreg : reg.toNat < 2 ^ 32 := reg.isLt.trans (by decide)
  have hplace : BitVec.ofNat 32 (reg.toNat * 2 ^ 16) = reg.zeroExtend 32 <<< 16 := by
    apply BitVec.eq_of_toNat_eq
    rw [BitVec.toNat_ofNat, BitVec.toNat_shiftLeft, BitVec.toNat_setWidth, Nat.mod_eq_of_lt hreg, Nat.shiftLeft_eq]
  rw [BitVec.ofNat_add, hplace]

/-- Settles O4: a word is the sum of its fields. -/
theorem assembledWordsFollowTheFormulas : Obligations.AssembledWordsFollowTheFormulas := by
  refine ⟨rfl, rfl, rfl, rfl, rfl, rfl, rfl, rfl, fun reg imm => ⟨?_, ?_⟩⟩
  · rw [encode, commandWord_eq_add, ofNat_op_reg_eq_add]
    rfl
  · rw [encode, commandWord_eq_add, ofNat_op_reg_eq_add]
    exact BitVec.add_zero _

end Sys2Proof.Machine
end

section
/-! PROOFS. What every command writes and reads (R10, R28, R62): its frame, two runs from states that agree on what it
reads, and that neither STATUS nor the default capacities decide anything (O13, O16, O44 to O47). -/

namespace Sys2Proof.Machine

/-! ### What a command writes -/

/-- The response of an error completion does not carry the code of success (R160). -/
theorem codeField_error_ne_zero (e : ErrorKind) : codeField (responseWord (errorCode e) 0) ≠ 0 := by
  rw [codeField_responseWord]
  cases e <;> decide

/-- Settles O46: an error completion writes STATUS alone, and a success completion what `Succeeds` lists. -/
theorem commandsWriteOnlyWhatTheTableLists : Obligations.CommandsWriteOnlyWhatTheTableLists := by
  intro i s
  obtain ⟨e, -, herr⟩ | ⟨u, data, bytes, hok, hu⟩ := exec_cases i s
  · have hregs : SameRegsBut [.status] s _ := raise_regs (e := e) rfl
    obtain ⟨⟨hbits, hdst⟩, -, houtput, haround⟩ := raise_frame (e := e) (s := s) rfl
    refine ⟨_, _, herr, rfl, fun r hr => hregs r fun hstatus => hr ?_,
      fun hcode => absurd hcode (codeField_error_ne_zero e), fun _ => hbits, fun _ => hdst, fun _ => houtput, rfl,
      haround⟩
    exact List.mem_singleton.1 hstatus ▸ List.mem_cons_self
  · exact ⟨_, _, hok, congrArg (· ++ _) hu.responses, fun r hr => hu.regs r (mt (List.mem_cons_of_mem _) hr),
      fun _ hr => hu.regs .status hr, hu.bits, hu.dst, hu.bytes_nil, congrArg (· ++ bytes) hu.out, hu.around⟩

/-! ### PACK and ENCODE read the raster alone -/

/-- From two states with one raster PACK and ENCODE complete with one output (R149). -/
theorem SameRaster.outputs_eq {s s' : State} (h : SameRaster s s') :
    ∀ i ∈ [Instr.pack, .encode], ∃ t t', exec i s = .next t ∧ exec i s' = .next t' ∧ t.output = t'.output := by
  intro i hi
  obtain rfl | rfl := List.mem_pair.1 hi
  · exact ⟨_, _, rfl, rfl, h.packed_eq⟩
  · exact ⟨_, _, rfl, rfl, h.codeText_eq⟩

/-- Settles O44: the three equations are the raster. -/
theorem outputsDependOnlyOnTheRaster : Obligations.OutputsDependOnlyOnTheRaster :=
  fun _ _ hbw hbh hbits => SameRaster.outputs_eq ⟨hbw, hbh, hbits⟩

/-- Settles O45: a WRREG, permitted or refused, keeps the raster. -/
theorem writingSettingsKeepsTheRaster : Obligations.WritingSettingsKeepsTheRaster := by
  intro s t reg imm ht
  obtain ⟨hbits, hregs⟩ := exec_wrreg_keeps ht
  have hraster : SameRaster s t :=
    ⟨(hregs .bw (by decide) (by decide)).symm, (hregs .bh (by decide) (by decide)).symm, hbits.symm⟩
  exact hraster.outputs_eq

/-! ### No command reads STATUS -/

/-- A write of STATUS changes nothing else. -/
theorem sameButStatus_setReg_status (s : State) (v : RegWord) : SameButStatus s (s.setReg .status v) where
  regs := fun _ hr => State.reg_setReg_other s v (List.ne_of_not_mem_cons hr)
  stores := ⟨rfl, rfl⟩
  out := rfl
  around := ⟨rfl, rfl, rfl, rfl, rfl⟩

/-- Settles O13: the two runs end alike but for STATUS, after the same responses. -/
theorem noCommandDependsOnStatus : Obligations.NoCommandDependsOnStatus := by
  intro i s v
  obtain ⟨t, u, r, r', ht, hu, hsame, houtput, htr, hur, hr⟩ := exec_endAlike (sameButStatus_setReg_status s v) i
  refine ⟨t, u, ht, hu, hsame.regs, hsame.stores, hsame.out, houtput, fun hne => ?_⟩
  rw [htr, hur, hr hne, State.setReg_responses]

/-! ### What a command reads -/

/-- The two states agree on what the table lists as read by a command: its registers, the parameters, and, where it
reads them, the answers of the source port and the bits of the raster (R10, R62). -/
structure SameReads (i : Instr) (s s' : State) : Prop where
  regs : ∀ r ∈ readsOf i, s.reg r = s'.reg r
  params : s.params = s'.params
  port : i ∈ [Instr.scalep, .tobin] → ∀ k x y, x < s.num .srcw → y < s.num .srch →
    s.srcRead k x y = s'.srcRead k x y
  bits : i ∈ [Instr.scaleb, .pack, .encode] → s.bits = s'.bits

theorem SameReads.num_eq {i : Instr} {s s' : State} (h : SameReads i s s') {r : Reg} (hr : r ∈ readsOf i) :
    s.num r = s'.num r := congrArg BitVec.toNat (h.regs r hr)

/-- The two states agree on what the table lists as written by a command (R62). -/
def SameWrites (i : Instr) (t t' : State) : Prop :=
  (∀ q ∈ writesOf i, t.reg q = t'.reg q) ∧ (i ∈ [Instr.sreset, .tobin] → t.bits = t'.bits) ∧
    (i ∈ [Instr.sreset, .scalep, .scaleb] → t.dst = t'.dst)

/-- Two runs of a command, from `s` and from `s'`, give the same response and output and, on success, the same written
registers and stores. -/
def AnswerAlike (i : Instr) (s s' : State) (o o' : Host.Outcome State Fault Refusal) : Prop :=
  ∃ t t' r, o = .next t ∧ o' = .next t' ∧ t.responses = s.responses ++ [r] ∧ t'.responses = s'.responses ++ [r] ∧
    t.output = t'.output ∧ (codeField r = 0 → SameWrites i t t')

theorem raise_answerAlike (i : Instr) (s s' : State) (e : ErrorKind) :
    AnswerAlike i s s' (raise e s) (raise e s') :=
  ⟨_, _, _, rfl, rfl, rfl, rfl, rfl, fun hcode => absurd hcode (codeField_error_ne_zero e)⟩

theorem complete_answerAlike {i : Instr} {s s' u u' : State} (data : RegWord) (bytes : List Byte)
    (hu : u.responses = s.responses) (hu' : u'.responses = s'.responses) (hwrites : SameWrites i u u') :
    AnswerAlike i s s' (complete data bytes u) (complete data bytes u') :=
  ⟨_, _, _, rfl, rfl, congrArg (· ++ _) hu, congrArg (· ++ _) hu', rfl, fun _ => hwrites⟩

/-- A command that writes no register and no store writes nothing two states could differ in. -/
theorem sameWrites_of_writes_nothing {i : Instr} (hregs : writesOf i = []) (hbits : i ∉ [Instr.sreset, .tobin])
    (hdst : i ∉ [Instr.sreset, .scalep, .scaleb]) (s s' : State) : SameWrites i s s' :=
  ⟨fun _ hq => absurd (hregs ▸ hq) List.not_mem_nil, fun h => absurd h hbits, fun h => absurd h hdst⟩

theorem execWrreg_answerAlike (reg : BitVec 8) (imm : RegWord) (s s' : State) :
    AnswerAlike (.wrreg reg imm) s s' (execWrreg reg imm s) (execWrreg reg imm s') := by
  unfold execWrreg
  cases hr : regOfNumber reg with
  | none => exact raise_answerAlike ..
  | some r =>
    dsimp only
    split_ifs
    · refine complete_answerAlike 0 [] rfl rfl ⟨fun q hq => ?_, by simp, by simp⟩
      obtain ⟨rfl, -⟩ : q = r ∧ _ := by simpa [writesOf, hr] using hq
      rw [State.reg_setReg_same, State.reg_setReg_same]
    · exact raise_answerAlike ..

theorem execRdreg_answerAlike {reg : BitVec 8} {s s' : State} (h : SameReads (.rdreg reg) s s') :
    AnswerAlike (.rdreg reg) s s' (execRdreg reg s) (execRdreg reg s') := by
  unfold execRdreg
  cases hr : regOfNumber reg with
  | none => exact raise_answerAlike ..
  | some r =>
    dsimp only
    rw [h.regs r (by simp [readsOf, hr])]
    exact complete_answerAlike _ _ rfl rfl (sameWrites_of_writes_nothing rfl (by simp) (by simp) s s')

/-- Images of one size and with the same pixels inside it are scaled to one buffer (R106). -/
theorem scaledImage_congr {f w h : Nat} {pix pix' : Nat → Nat → Nat → Pixel}
    (hpix : ∀ k x y, x < w → y < h → pix k x y = pix' k x y) : scaledImage f w h pix = scaledImage f w h pix' :=
  rowMajor_congr fun _ _ hx hy => hpix _ _ _ (Nat.div_lt_of_lt_mul hx) (Nat.div_lt_of_lt_mul hy)

/-- The registers and the store a scale command writes do not depend on the state they are written in. -/
theorem putScaled_sameWrites {i : Instr} (hi : i ∈ [Instr.scalep, .scaleb]) (s s' : State) {f w h : Nat}
    {pix pix' : Nat → Nat → Nat → Pixel} (hpix : ∀ k x y, x < w → y < h → pix k x y = pix' k x y) :
    SameWrites i (s.putScaled f w h pix) (s'.putScaled f w h pix') := by
  have hregs : ∀ q ∈ [Reg.outw, .outh, .factor],
      (s.putScaled f w h pix).reg q = (s'.putScaled f w h pix').reg q := by
    intro q hq
    simp only [List.mem_cons, List.not_mem_nil, or_false] at hq
    obtain rfl | rfl | rfl := hq <;> simp [State.putScaled]
  obtain rfl | rfl := List.mem_pair.1 hi
  · exact ⟨hregs, by simp, fun _ => scaledImage_congr hpix⟩
  · exact ⟨hregs, by simp, fun _ => scaledImage_congr hpix⟩

theorem scale_answerAlike {i : Instr} (hi : i ∈ [Instr.scalep, .scaleb]) {s s' : State}
    (hbox : ∀ r ∈ [Reg.maxw, .maxh, .maxf], s.num r = s'.num r) (hparams : s.params = s'.params) {w h : Nat}
    {pix pix' : Nat → Nat → Nat → Pixel} (hpix : ∀ k x y, x < w → y < h → pix k x y = pix' k x y) :
    AnswerAlike i s s' (scale w h pix s) (scale w h pix' s') := by
  have hmaxw := hbox .maxw (by decide)
  have hmaxh := hbox .maxh (by decide)
  have hmaxf := hbox .maxf (by decide)
  have hfactor : scaleFactor s w h = scaleFactor s' w h := by rw [scaleFactor, scaleFactor, hmaxw, hmaxh, hmaxf]
  rw [scale, scale, ← hmaxw, ← hmaxh, ← hmaxf, ← hfactor, ← hparams]
  split_ifs
  · exact raise_answerAlike ..
  · exact raise_answerAlike ..
  · exact raise_answerAlike ..
  · exact complete_answerAlike 0 [] rfl rfl (putScaled_sameWrites hi s s' hpix)

theorem execScalep_answerAlike {s s' : State} (h : SameReads .scalep s s') :
    AnswerAlike .scalep s s' (execScalep s) (execScalep s') := by
  have hbox : ∀ r ∈ [Reg.maxw, .maxh, .maxf], s.num r = s'.num r :=
    fun r hr => h.num_eq (List.mem_append_right [Reg.srcw, .srch] hr)
  rw [execScalep, execScalep, ← h.num_eq (r := .srcw) (by decide), ← h.num_eq (r := .srch) (by decide)]
  exact scale_answerAlike (by decide) hbox h.params (h.port (by decide))

theorem execScaleb_answerAlike {s s' : State} (h : SameReads .scaleb s s') :
    AnswerAlike .scaleb s s' (execScaleb s) (execScaleb s') := by
  have hbox : ∀ r ∈ [Reg.maxw, .maxh, .maxf], s.num r = s'.num r :=
    fun r hr => h.num_eq (List.mem_append_right [Reg.bw, .bh, .bpol] hr)
  have hpol : s.rasterPol = s'.rasterPol := congrArg (BitVec.getLsbD · 0) (h.regs .bpol (by decide))
  have hbit (x y : Nat) : s.bit x y = s'.bit x y := by
    rw [State.bit, State.bit, h.bits (by decide), h.num_eq (r := .bw) (by decide)]
  rw [execScaleb, execScaleb, ← h.num_eq (r := .bw) (by decide), ← h.num_eq (r := .bh) (by decide)]
  exact scale_answerAlike (by decide) hbox h.params fun _ x y _ _ => by rw [hpol, hbit]

/-- The registers and the store TOBIN writes depend on what it reads alone (R125). -/
theorem putRaster_sameWrites {s s' : State} (h : SameReads .tobin s s') :
    SameWrites .tobin s.putRaster s'.putRaster := by
  have hpol : s.ctrlPol = s'.ctrlPol := congrArg (BitVec.getLsbD · 0) (h.regs .ctrl (by decide))
  refine ⟨fun q hq => ?_, fun _ => binarized_congr h.regs (h.port (by decide)), by simp⟩
  simp only [writesOf, List.mem_cons, List.not_mem_nil, or_false] at hq
  obtain rfl | rfl | rfl | rfl := hq
  · simp [State.putRaster, h.regs .srcw (by decide)]
  · simp [State.putRaster, h.regs .srch (by decide)]
  · simp [State.putRaster, h.num_eq (r := .srcw) (by decide)]
  · simp [State.putRaster, hpol]

theorem execTobin_answerAlike {s s' : State} (h : SameReads .tobin s s') :
    AnswerAlike .tobin s s' (execTobin s) (execTobin s') := by
  rw [execTobin, execTobin, ← h.num_eq (r := .srcw) (by decide), ← h.num_eq (r := .srch) (by decide), ← h.params]
  split_ifs
  · exact raise_answerAlike ..
  · exact complete_answerAlike 0 [] rfl rfl (putRaster_sameWrites h)

/-- Every command answers alike from two states that agree on what it reads (R10). -/
theorem exec_answerAlike {i : Instr} {s s' : State} (h : SameReads i s s') :
    AnswerAlike i s s' (exec i s) (exec i s') := by
  cases i with
  | nop => exact complete_answerAlike 0 [] rfl rfl (sameWrites_of_writes_nothing rfl (by simp) (by simp) s s')
  | wrreg reg imm => exact execWrreg_answerAlike reg imm s s'
  | rdreg reg => exact execRdreg_answerAlike h
  | clrerr =>
    refine complete_answerAlike 0 [] rfl rfl ⟨fun q hq => ?_, by simp, by simp⟩
    obtain rfl := List.mem_singleton.1 hq
    rw [State.reg_setReg_same, State.reg_setReg_same]
  | sreset => exact complete_answerAlike 0 [] rfl rfl ⟨fun _ _ => rfl, fun _ => rfl, fun _ => rfl⟩
  | scalep => exact execScalep_answerAlike h
  | scaleb => exact execScaleb_answerAlike h
  | tobin => exact execTobin_answerAlike h
  | pack =>
    have hraster : SameRaster s s' := ⟨h.regs .bw (by decide), h.regs .bh (by decide), h.bits (by decide)⟩
    rw [exec, exec, execPack, execPack, hraster.packed_eq]
    exact complete_answerAlike _ _ rfl rfl (sameWrites_of_writes_nothing rfl (by simp) (by simp) s s')
  | encode =>
    have hraster : SameRaster s s' := ⟨h.regs .bw (by decide), h.regs .bh (by decide), h.bits (by decide)⟩
    rw [exec, exec, execEncode, execEncode, hraster.codeText_eq]
    exact complete_answerAlike _ _ rfl rfl (sameWrites_of_writes_nothing rfl (by simp) (by simp) s s')

/-- Settles O47: command by command, each check and each result is a function of what the command reads. -/
theorem commandsReadOnlyWhatTheTableLists : Obligations.CommandsReadOnlyWhatTheTableLists :=
  fun _ _ _ hregs hparams hport hbits => exec_answerAlike ⟨hregs, hparams, hport, hbits⟩

/-! ### The default capacities -/

/-- A scale operation whose result fits the default capacity reports a code other than CapacityExceeded. -/
theorem scale_reports_of_default (w h : Nat) (pix : Nat → Nat → Nat → Pixel) {s : State}
    (hparams : s.params = Params.default) :
    ∃ code, code ≠ errorCode .capacityExceeded ∧ ReportsCode code s (scale w h pix s) := by
  obtain ⟨-, hscale⟩ | ⟨-, -, hscale⟩ | ⟨-, -, hcap, -⟩ | ⟨-, -, -, hscale⟩ := scale_cases w h pix s
  · exact ⟨_, by decide, hscale ▸ raise_reports .invalidDimension s⟩
  · exact ⟨_, by decide, hscale ▸ raise_reports .factorUnderflow s⟩
  · obtain ⟨hw, hh, -⟩ := scaleFactor_mul_le s w h
    have hfits := (Nat.mul_le_mul hw hh).trans (num_mul_num_le_default s .maxw .maxh)
    rw [hparams] at hcap
    exact absurd hcap hfits.not_gt
  · exact ⟨_, by decide, hscale ▸ complete_reports 0 [] rfl⟩

/-- With the default capacities every command reports a code other than CapacityExceeded (R7, R165). -/
theorem exec_reports_of_default (i : Instr) {s : State} (hparams : s.params = Params.default) :
    ∃ code, code ≠ errorCode .capacityExceeded ∧ ReportsCode code s (exec i s) := by
  have hok {u : State} (data : RegWord) (bytes : List Byte) (hu : u.responses = s.responses) :
      ∃ code, code ≠ errorCode .capacityExceeded ∧ ReportsCode code s (complete data bytes u) :=
    ⟨okCode, by decide, complete_reports data bytes hu⟩
  have hillegal : ∃ code, code ≠ errorCode .capacityExceeded ∧ ReportsCode code s (raise .illegalCommand s) :=
    ⟨_, by decide, raise_reports .illegalCommand s⟩
  cases i with
  | nop | clrerr | sreset | pack | encode => exact hok _ _ rfl
  | wrreg reg imm =>
    obtain ⟨hexec, -⟩ | ⟨r, -, -, hexec⟩ := execWrreg_cases reg imm s
    · rw [exec, hexec]
      exact hillegal
    · rw [exec, hexec]
      exact hok 0 [] rfl
  | rdreg reg =>
    obtain ⟨hexec, -⟩ | ⟨r, -, hexec⟩ := execRdreg_cases reg s
    · rw [exec, hexec]
      exact hillegal
    · rw [exec, hexec]
      exact hok (s.reg r) [] rfl
  | scalep | scaleb => exact scale_reports_of_default _ _ _ hparams
  | tobin =>
    have hcap : s.num .srcw * s.num .srch ≤ s.params.bitsCap := hparams ▸ num_mul_num_le_default s .srcw .srch
    rw [exec_tobin_of_fits hcap]
    exact hok 0 [] rfl

/-- Settles O16: no image and no scaled buffer with dimensions of sixteen bits exceeds 2^32 elements. -/
theorem defaultCapacitiesAreNeverExceeded : Obligations.DefaultCapacitiesAreNeverExceeded := by
  intro i s hparams
  obtain ⟨_, hne, t, r, hnext, hresponses, rfl⟩ := exec_reports_of_default i hparams
  exact ⟨t, r, hnext, hresponses, hne⟩

end Sys2Proof.Machine
end

section
/-! PROOFS. The inputs: what a step does with a command word, that every queue of inputs is served, the flags of STATUS
along a step, hardware reset during a command, the DST port, the two parties outside, and several blocks side by side
(O7 to O9, O14, O23, O50, O51, O53). -/

namespace Sys2Proof.Machine

/-! ### One step -/

/-- A step on a command word runs the word, with the input taken (R60). -/
theorem step_of_command {s : State} {c : CmdWord} {rest : List Event} (h : s.pending = .command c :: rest) :
    step s = runWord c (s.take rest) := step_of_pending h

/-- A step while no input waits changes nothing. -/
theorem step_of_idle {s : State} (h : s.pending = []) : step s = .next s := by
  rw [step, serveNext, h]

/-- Settles O7: the two cases of the decoder, and the two fields `take` sets. -/
theorem stepRunsTheDecodedCommand : Obligations.StepRunsTheDecodedCommand := by
  intro s c rest hpending
  rw [step_of_command hpending]
  refine ⟨fun i hi => ?_, fun why hwhy => runWord_fails_of_illegal hwhy _, rfl⟩
  rw [runWord, hi]

/-! ### Every input is served -/

/-- No command touches what stands outside the block (R62). -/
theorem exec_around {i : Instr} {s t : State} (ht : exec i s = .next t) : SameSurroundings s t := by
  obtain ⟨e, -, herr⟩ | ⟨u, data, bytes, hok, hu⟩ := exec_cases i s
  · obtain ⟨-, -, -, haround⟩ := raise_frame (herr.symm.trans ht)
    exact haround
  · rw [complete_next (hok.symm.trans ht)]
    exact hu.around

theorem runWord_around {c : CmdWord} {s t : State} (ht : runWord c s = .next t) : SameSurroundings s t := by
  obtain ⟨i, -, hrun⟩ | ⟨why, -, hrun⟩ := runWord_cases c s
  · exact exec_around (hrun.symm.trans ht)
  · obtain ⟨-, -, -, haround⟩ := raise_frame (hrun.symm.trans ht)
    exact haround

/-- Whether an input is a command word that is not abandoned. -/
def Event.isCommand : Event → Bool
  | .command _ => true
  | _ => false

/-- Every input ends in a next state, with the inputs behind it as they were and one response more exactly for a command
word (R77, R186). -/
theorem serve_progresses (e : Event) (s : State) :
    ∃ t, serve e s = .next t ∧ t.pending = s.pending ∧
      t.responses.length = s.responses.length + e.isCommand.toNat := by
  cases e with
  | command c =>
    obtain ⟨t, r, hnext, hresponses, -⟩ := runWord_responds c s
    obtain ⟨hpending, -⟩ := runWord_around hnext
    exact ⟨t, hnext, hpending, by rw [hresponses, List.length_append]; rfl⟩
  | offerSource | hardwareReset | resetDuring | displayRead | sinkTake => exact ⟨_, rfl, rfl, rfl⟩

/-- Settles O8: an input is served, and without one nothing happens. -/
theorem everyStepAnswersNext : Obligations.EveryStepAnswersNext := by
  refine fun s => ⟨?_, step_of_idle⟩
  cases hpending : s.pending with
  | nil => exact ⟨s, step_of_idle hpending⟩
  | cons e rest =>
    obtain ⟨t, hserve, -⟩ := serve_progresses e (s.take rest)
    exact ⟨t, (step_of_pending hpending).trans hserve⟩

theorem run_succ_of_step {s u : State} (h : step s = .next u) (k : Nat) :
    Host.Core.run core (k + 1) s = Host.Core.run core k u := by
  have hcore : core.step s = .next u := h
  simp only [Host.Core.run, hcore]

/-- As many steps as inputs wait serve them all, with one response more for each command word. -/
theorem run_serves_all {queue : List Event} {s : State} (h : s.pending = queue) :
    ∃ t : State, Host.Core.run core queue.length s = .next t ∧ t.pending = [] ∧
      t.responses.length = s.responses.length + (queue.filter Event.isCommand).length := by
  induction queue generalizing s with
  | nil => exact ⟨s, rfl, h, rfl⟩
  | cons e rest ih =>
    obtain ⟨u, hserve, hpending, hcount⟩ := serve_progresses e (s.take rest)
    obtain ⟨t, hrun, hempty, htotal⟩ := ih hpending
    refine ⟨t, (run_succ_of_step ((step_of_pending h).trans hserve) _).trans hrun, hempty, ?_⟩
    rw [htotal, hcount, State.take_responses, List.filter_cons]
    cases e.isCommand with
    | true => exact Nat.succ_add_eq_add_succ _ _
    | false => rfl

/-- Settles O9, by induction on the queue. -/
theorem everyQueueOfInputsIsServed : Obligations.EveryQueueOfInputsIsServed :=
  fun _ => run_serves_all rfl

/-! ### The flags of STATUS -/

/-- Only CLRERR and SRESET write STATUS when they succeed (R62). -/
theorem status_mem_writesOf {i : Instr} (h : .status ∈ writesOf i) : i = .clrerr ∨ i = .sreset := by
  cases i with
  | clrerr => exact .inl rfl
  | sreset => exact .inr rfl
  | wrreg reg imm => exact absurd (List.mem_filter.1 h).2 (by decide)
  | nop | rdreg | scalep | scaleb | tobin | pack | encode => simp [writesOf] at h

/-- An error completion keeps every flag that was set (R166 item 2). -/
theorem raise_keeps_flag {e : ErrorKind} (he : e ≠ .decodeFailure) {s t : State} (ht : raise e s = .next t) {k : Nat}
    (hk : (s.reg .status).getLsbD k = true) : (t.reg .status).getLsbD k = true := by
  rw [raise_status ht he, setErrorFlag, BitVec.getLsbD_or, hk, Bool.true_or]

/-- Every command but CLRERR and SRESET keeps every flag that was set (R28). -/
theorem exec_keeps_flag {i : Instr} {s t : State} (ht : exec i s = .next t) (hi : ¬ (i = .clrerr ∨ i = .sreset))
    {k : Nat} (hk : (s.reg .status).getLsbD k = true) : (t.reg .status).getLsbD k = true := by
  obtain ⟨e, he, herr⟩ | ⟨u, data, bytes, hok, hu⟩ := exec_cases i s
  · exact raise_keeps_flag he (herr.symm.trans ht) hk
  · rw [complete_next (hok.symm.trans ht), State.reg_finish, hu.regs .status (mt status_mem_writesOf hi), hk]

theorem runWord_encode (i : Instr) (s : State) : runWord (encode i) s = exec i s := by
  rw [runWord, decode_encode]

theorem runWord_keeps_flag {c : CmdWord} {s t : State} (ht : runWord c s = .next t)
    (hc : ¬ (c = encode .clrerr ∨ c = encode .sreset)) {k : Nat} (hk : (s.reg .status).getLsbD k = true) :
    (t.reg .status).getLsbD k = true := by
  obtain ⟨i, hdecode, hrun⟩ | ⟨why, -, hrun⟩ := runWord_cases c s
  · obtain rfl := eq_encode_of_decode hdecode
    exact exec_keeps_flag (hrun.symm.trans ht) (mt (Or.imp (congrArg encode) (congrArg encode)) hc) hk
  · exact raise_keeps_flag (by decide) (hrun.symm.trans ht) hk

/-- The inputs that clear STATUS: CLRERR, SRESET, and hardware reset, while idle or during a command (R28). -/
def ClearsStatus (e : Event) : Prop :=
  e = .command (encode .clrerr) ∨ e = .command (encode .sreset) ∨ e = .hardwareReset ∨ ∃ c, e = .resetDuring c

theorem reg_status_of_reset {t : State} (h : t.regs = RegFile.reset) : t.reg .status = 0 := by
  rw [State.reg, h]
  decide

theorem serve_clears_status {e : Event} (he : ClearsStatus e) {s t : State} (ht : serve e s = .next t) :
    t.reg .status = 0 := by
  obtain rfl | rfl | rfl | ⟨c, rfl⟩ := he
  · rw [serve, runWord_encode] at ht
    rw [complete_next ht, State.reg_finish, State.reg_setReg_same]
    exact BitVec.zero_and
  · rw [serve, runWord_encode] at ht
    rw [complete_next ht]
    exact reg_status_of_reset rfl
  · cases ht
    exact reg_status_of_reset rfl
  · cases ht
    exact reg_status_of_reset rfl

theorem serve_keeps_flag {e : Event} (he : ¬ ClearsStatus e) {s t : State} (ht : serve e s = .next t) {k : Nat}
    (hk : (s.reg .status).getLsbD k = true) : (t.reg .status).getLsbD k = true := by
  cases e with
  | command c =>
    refine runWord_keeps_flag ht (fun hc => he ?_) hk
    exact hc.imp (congrArg Event.command) fun hsreset => .inl (congrArg Event.command hsreset)
  | hardwareReset => exact absurd (.inr (.inr (.inl rfl))) he
  | resetDuring c => exact absurd (.inr (.inr (.inr ⟨c, rfl⟩))) he
  | offerSource | displayRead | sinkTake => cases ht; exact hk

/-- Settles O14: the four inputs that clear STATUS clear it whole, and every other one only adds flags. -/
theorem statusFlagsStayUntilCleared : Obligations.StatusFlagsStayUntilCleared := by
  intro s t e rest hpending ht
  rw [step_of_pending hpending] at ht
  by_cases he : ClearsStatus e
  · exact (if_pos he).mpr (serve_clears_status he ht)
  · exact (if_neg he).mpr fun k _ hk => serve_keeps_flag he ht hk

/-! ### Hardware reset during a command -/

/-- What an abandoned command leaves in OUT is an initial part of its output (R186). -/
theorem abandonWord_out {c : CmdWord} {s u : State} (hu : runWord c s = .next u) :
    (abandonWord c s).out = s.out ++ u.output.take (Config.abandonedCount s.draws) := by
  rw [abandonWord, hu]
  rfl

/-- Settles O23: the abandoned command would have completed; the block is reset, and OUT got a part of its output. -/
theorem resetDuringACommandAbandonsIt : Obligations.ResetDuringACommandAbandonsIt := by
  intro s c
  obtain ⟨u, r, hu, -⟩ := runWord_responds c s
  exact ⟨abandonWord c s, u, _, rfl, hu, rfl, rfl, rfl, rfl, abandonWord_out hu, rfl, rfl, rfl, rfl, rfl⟩

/-! ### The parties around the block -/

/-- Settles O50: the invariant holds the canonical form of DST, whose elements the port answers. -/
theorem displayReadAnswersTheScaledBuffer : Obligations.DisplayReadAnswersTheScaledBuffer := by
  intro s busy ox oy hinv
  obtain ⟨-, -, -, -, -, hwf⟩ := hinv
  refine ⟨_, s.dstRead busy ox.toNat oy.toNat, rfl, rfl, ?_⟩
  rintro rfl hx hy
  exact dstRead_inside hwf hx hy

/-- Settles O51: each is one field set, and OUT is what is taken and what is left. -/
theorem sourceAndSinkTouchNothingElse : Obligations.SourceAndSinkTouchNothingElse :=
  fun s _ n => ⟨rfl, _, rfl, (List.take_append_drop n s.out).symm, rfl⟩

/-! ### Several blocks -/

theorem stepBlock_of_step {blocks : List State} {k : Nat} {s t : State} (hk : blocks[k]? = some s)
    (ht : step s = .next t) : stepBlock k blocks = .next (blocks.set k t) := by
  have hserve : serveNext s = .next t := ht
  rw [stepBlock, hk]
  dsimp only
  rw [hserve]

theorem stepBlock_of_absent {blocks : List State} {k : Nat} (hk : blocks[k]? = none) :
    stepBlock k blocks = .next blocks := by
  rw [stepBlock, hk]

/-- Settles O53: every block can take its step, which sets one element of the list. -/
theorem blocksSideBySideAreIndependent : Obligations.BlocksSideBySideAreIndependent := by
  intro blocks k
  cases hk : blocks[k]? with
  | none => exact ⟨blocks, stepBlock_of_absent hk, rfl, fun _ _ => rfl, nofun⟩
  | some s =>
    obtain ⟨⟨t, ht⟩, -⟩ := everyStepAnswersNext s
    refine ⟨blocks.set k t, stepBlock_of_step hk ht, List.length_set,
      fun j hj => List.getElem?_set_ne hj.symm, fun s' hs' => ⟨t, ?_, ?_⟩⟩
    · cases hs'
      exact ht
    · obtain ⟨hlt, -⟩ := List.getElem?_eq_some_iff.1 hk
      exact List.getElem?_set_self hlt

end Sys2Proof.Machine
end

section
/-! PROOFS. What a written register reads back (R22, R28), and the invariant after reset (R42) (O25, O49). -/

namespace Sys2Proof.Machine

/-- A register that uses its low `k` bits reads back those of what was written. -/
theorem num_setReg_of_lowMask {r : Reg} {k : Nat} (h : (usedBits r).toNat = 2 ^ k - 1) (s : State) (v : RegWord) :
    (s.setReg r v).num r = v.toNat % 2 ^ k := by
  rw [State.num, State.reg_setReg_same, BitVec.toNat_and, h, Nat.and_two_pow_sub_one_eq_mod]

/-- The bits of STATUS that are used are its four flags (R28). -/
theorem getLsbD_usedBits_status :
    ∀ k < 16, (usedBits .status).getLsbD k = decide (k = 1 ∨ k = 3 ∨ k = 4 ∨ k = 5) := by decide

/-- Settles O25: a write reads back under the mask of its register, and writes no other. -/
theorem writingARegisterReadsBackItsUsedBits : Obligations.WritingARegisterReadsBackItsUsedBits := by
  intro s v
  have hfull : ∀ r ∈ [Reg.srcw, .srch, .maxw, .maxh, .maxf, .bw, .bh, .outw, .outh, .factor],
      usedBits r = 65535#16 := by decide
  refine ⟨fun r hr => ?_, num_setReg_of_lowMask (k := 8) rfl s v, num_setReg_of_lowMask (k := 2) rfl s v,
    num_setReg_of_lowMask (k := 14) rfl s v, num_setReg_of_lowMask (k := 1) rfl s v, fun k hk => ?_,
    fun r r' hne => State.reg_setReg_other s v hne⟩
  · rw [State.reg_setReg_same, hfull r hr, and_all_used]
  · rw [State.reg_setReg_same, BitVec.getLsbD_and, getLsbD_usedBits_status k hk]

/-- Settles O49: a reset of the reset state is the reset state. -/
theorem invariantHoldsAtReset : Obligations.InvariantHoldsAtReset :=
  BlockInv.congr rfl rfl rfl rfl (BlockInv.resetBlock State.reset)

end Sys2Proof.Machine
end

section
/-! PROOFS. The binarized preview: SCALEB's result, offered back as a source image and binarized, is the raster scaled
by the factor (R108, R127, O36). -/

namespace Sys2Proof.Machine

/-! ### Row-major buffers by their elements -/

/-- A list of the length of a row-major buffer, with the buffer's element at every position, is the buffer (R51). -/
theorem eq_rowMajor {α : Type} {w h : Nat} {f : Nat → Nat → α} {l : List α} (hlength : l.length = w * h)
    (hat : ∀ x y, x < w → y < h → l[y * w + x]? = some (f x y)) : l = rowMajor w h f := by
  refine List.ext_getElem? fun i => ?_
  rcases Nat.lt_or_ge i (w * h) with hi | hi
  · have hw : 0 < w := Nat.pos_of_mul_pos_right (Nat.zero_lt_of_lt hi)
    have hx : i % w < w := Nat.mod_lt i hw
    have hy : i / w < h := Nat.div_lt_of_lt_mul hi
    have hindex : i / w * w + i % w = i := Nat.div_add_mod' i w
    have hl := hat _ _ hx hy
    have hrow := rowMajor_at f hx hy
    rw [hindex] at hl hrow
    rw [hl, hrow]
  · rw [List.getElem?_eq_none (hlength.trans_le hi), List.getElem?_eq_none ((rowMajor_length w h f).trans_le hi)]

/-- In canonical form BITS is the row-major list of the raster's bits (R35). -/
theorem bits_eq_rowMajor {s : State} (hwf : Memory.wf s) : s.bits = rowMajor (s.num .bw) (s.num .bh) s.bit :=
  eq_rowMajor hwf.1 fun _ _ hx hy => bit_inside hwf hx hy

/-! ### The preview, offered and binarized -/

/-- A buffer that lists a row-major image answers the image (R52). -/
theorem PixelBuffer.word_of_rowMajor {w h x y : Nat} (f : Nat → Nat → Pixel) (hx : x < w) (hy : y < h) :
    PixelBuffer.word { width := w, height := h, pixels := rowMajor w h f, steady := true } x y = some (f x y) := by
  rw [PixelBuffer.word, if_pos ⟨rfl, hx, hy⟩]
  exact rowMajor_at f hx hy

/-- The binarized bits of an image in black and white, offered by the source collaborator with the size SRCW × SRCH,
are the bits it was expanded from, under its own polarity and any THRESH from 1 on (R127). -/
theorem binarized_of_expanded {u : State} {w h : Nat} {pol : Bool} {b : Nat → Nat → Bool}
    (hw : u.num .srcw = w) (hh : u.num .srch = h)
    (hsrc : u.src =
      { width := w, height := h, pixels := rowMajor w h fun x y => expandBit pol (b x y), steady := true })
    (hpol : u.ctrlPol = pol) (hthresh : 1 ≤ u.num .thresh) : binarized u = rowMajor w h b := by
  have hbyte : u.num .thresh ≤ 255 := u.num_le_usedBits .thresh
  obtain ⟨-, -, -, hexpand⟩ := rethresholdIsIdempotent _ hthresh hbyte
  rw [binarized, hw, hh]
  refine rowMajor_congr fun x y hx hy => ?_
  rw [State.srcRead, hsrc, PixelBuffer.word_of_rowMajor _ hx hy, hpol]
  exact hexpand _ pol (b x y)

/-- The state in which the result of a scale command is offered back as the source image of its size. -/
def State.offerScaled (t : State) : State :=
  { (t.setReg .srcw (t.reg .outw)).setReg .srch (t.reg .outh) with
    src := { width := t.num .outw, height := t.num .outh, pixels := t.dst, steady := true } }

theorem State.num_srcw_offerScaled (t : State) : t.offerScaled.num .srcw = t.num .outw := by
  have hreg : t.offerScaled.reg .srcw = t.reg .outw &&& usedBits .srcw := rfl
  rw [State.num, hreg, usedBits_srcw]
  exact congrArg BitVec.toNat (and_all_used _)

theorem State.num_srch_offerScaled (t : State) : t.offerScaled.num .srch = t.num .outh := by
  have hreg : t.offerScaled.reg .srch = t.reg .outh &&& usedBits .srch := rfl
  rw [State.num, hreg, usedBits_srch]
  exact congrArg BitVec.toNat (and_all_used _)

/-- What a successful SCALEB leaves: the buffer of the raster's bits, each expanded and repeated, under the settings
that were in force (R110). -/
theorem scaleb_succeeded {s t : State} (ht : exec .scaleb s = .next t) (hok : t.responses = s.responses ++ [0]) :
    t.num .outw = t.num .factor * s.num .bw ∧ t.num .outh = t.num .factor * s.num .bh ∧
    t.dst = rowMajor (t.num .outw) (t.num .outh)
      (fun ox oy => expandBit s.rasterPol (s.bit (ox / t.num .factor) (oy / t.num .factor))) ∧
    t.reg .ctrl = s.reg .ctrl ∧ t.reg .thresh = s.reg .thresh ∧ t.params = s.params := by
  obtain ⟨-, rfl⟩ := scale_succeeded ht hok
  obtain ⟨houtw, houth, hfactor, hregs, hdst, -⟩ := putScaled_scaleFactor_spec s (s.num .bw) (s.num .bh)
    fun _ x y => expandBit s.rasterPol (s.bit x y)
  simp only [State.num_finish, State.finish_dst, State.reg_finish, houtw, houth, hfactor]
  exact ⟨trivial, trivial, hdst, hregs .ctrl (by decide), hregs .thresh (by decide), rfl⟩

/-- Settles O36: the source image is the raster in black and white, so its bits under the raster's polarity are the
raster's, at the positions divided by the factor. -/
theorem binarizedPreviewGivesBackTheRaster : Obligations.BinarizedPreviewGivesBackTheRaster := by
  intro s t u hwf ht hok hu hpol hthresh hcap
  obtain ⟨houtw, houth, hdst, hctrl, hthr, hparams⟩ := scaleb_succeeded ht hok
  obtain rfl : u = t.offerScaled := hu
  have hw := t.num_srcw_offerScaled
  have hh := t.num_srch_offerScaled
  have hbinarized : binarized t.offerScaled = rowMajor (t.num .outw) (t.num .outh)
      fun ox oy => s.bit (ox / t.num .factor) (oy / t.num .factor) := by
    refine binarized_of_expanded (pol := s.rasterPol) hw hh (by rw [← hdst]; rfl) ?_ ?_
    · exact (congrArg (BitVec.getLsbD · 0) hctrl).trans hpol
    · exact hthresh.trans_eq (congrArg BitVec.toNat hthr).symm
  have hfits : t.offerScaled.num .srcw * t.offerScaled.num .srch ≤ t.offerScaled.params.bitsCap := by
    rw [hw, hh]
    exact hcap.trans_eq (congrArg Params.bitsCap hparams).symm
  obtain ⟨v, hnext, -, -, hregbw, hregbh, -, -, -, -, hbits⟩ := exec_tobin_succeeds hfits
  have hbw : v.num .bw = t.num .outw := (congrArg BitVec.toNat hregbw).trans hw
  have hbh : v.num .bh = t.num .outh := (congrArg BitVec.toNat hregbh).trans hh
  refine ⟨v, hnext, hbw, hbh, fun ox oy hx hy => ?_, fun hone => ?_⟩
  · rw [State.bit, hbits, hbinarized, hbw, rowMajor_at _ hx hy, Option.getD_some]
  · rw [hbits, hbinarized, bits_eq_rowMajor hwf, houtw, houth, hone, Nat.one_mul, Nat.one_mul]
    simp only [Nat.div_one]

end Sys2Proof.Machine
end

section
/-! PROOFS. ENCODE's text as a consumer sees it: how often each separator stands in it and which bytes it is made of
(R140 to R144, O42), and that it reads back as the packed bytes (R150, O43). -/

namespace Sys2Proof.Machine

/-! ### Counting in the text -/

theorem not_mem_tokenOf {b c : Byte} (hc : c ∉ 0x78 :: hexDigits) : c ∉ tokenOf b :=
  fun h => hc (mem_hexToken (hexToken_eq_tokenOf b ▸ h))

theorem count_tokenOf_of_not_mem {c : Byte} (hc : c ∉ 0x78 :: hexDigits) (b : Byte) : (tokenOf b).count c = 0 :=
  List.count_eq_zero.2 (not_mem_tokenOf hc)

/-- A token is `0x` and one or two hexadecimal digits (R141). -/
theorem tokenOf_eq_cons (b : Byte) :
    ∃ digits : List Byte, tokenOf b = 0x30 :: 0x78 :: digits ∧ ∀ c ∈ digits, c ∈ hexDigits := by
  obtain ⟨hhigh, hlow⟩ := hexDigit_lt b
  have hdigit {d : Nat} (hd : d < 16) : hexDigits.getD d 0 ∈ hexDigits :=
    digitCode_eq_getD hd ▸ digitCode_mem_hexDigits hd
  rw [tokenOf]
  split_ifs with hb
  · exact ⟨_, rfl, by simpa using hdigit hb⟩
  · exact ⟨_, rfl, by simpa using ⟨hdigit hhigh, hdigit hlow⟩⟩

/-- A token holds one `x` (R141). -/
theorem count_x_tokenOf (b : Byte) : (tokenOf b).count 0x78 = 1 := by
  obtain ⟨digits, htoken, hdigits⟩ := tokenOf_eq_cons b
  have hnone : digits.count 0x78 = 0 := List.count_eq_zero.2 fun h => absurd (hdigits _ h) (by decide)
  rw [htoken, List.count_cons, List.count_cons, hnone]
  rfl

section
variable {c : Byte} {k : Nat} (hk : ∀ b, (tokenOf b).count c = k)
include hk

/-- A byte of which every token holds `k`, counted in tokens with their commas. -/
theorem count_commaTokens (bs : List Byte) :
    (commaTokens bs).count c = bs.length * (k + [0x2C].count c) := by
  induction bs with
  | nil => exact (Nat.zero_mul _).symm
  | cons b bs ih =>
    rw [commaTokens, List.flatMap_cons, List.count_append, List.count_append, hk, ← commaTokens, ih, List.length_cons,
      Nat.succ_mul, Nat.add_comm]

theorem count_commaLines (rows : List (List Byte)) :
    (commaLines rows).count c = rows.flatten.length * (k + [0x2C].count c) + rows.length * [0x0A].count c := by
  induction rows with
  | nil => rw [List.flatten_nil, List.length_nil, List.length_nil, Nat.zero_mul, Nat.zero_mul]; rfl
  | cons row rows ih =>
    rw [commaLines, List.flatMap_cons, List.count_append, List.count_append, count_commaTokens hk, ← commaLines, ih,
      List.flatten_cons, List.length_append, List.length_cons]
    ring

end

/-- The text of a non-empty array holds the bytes of its lines with all their commas, between the opening and the
closing line, less one comma (R140, R142). -/
theorem count_arrayText_concat (c : Byte) (rows : List (List Byte)) (row : List Byte) (b : Byte) :
    (arrayText (rows ++ [row ++ [b]])).count c + [0x2C].count c =
      [0x7B, 0x0A].count c + (commaLines (rows ++ [row ++ [b]])).count c + [0x7D, 0x3B, 0x0A].count c := by
  rw [arrayText_concat, commaLines_concat]
  simp only [List.count_append]
  omega

/-- How often a byte of which every token holds `k` stands in the text of a raster that is not empty. -/
theorem count_codeText {c : Byte} {k : Nat} (hk : ∀ b, (tokenOf b).count c = k) {s : State}
    (h : ¬ (s.num .bw = 0 ∨ s.num .bh = 0)) :
    (codeText s).count c + [0x2C].count c =
      [0x7B, 0x0A].count c + (rowByteWidth s * s.num .bh * (k + [0x2C].count c) + s.num .bh * [0x0A].count c) +
        [0x7D, 0x3B, 0x0A].count c := by
  have hlines := count_commaLines hk (packedRows s)
  rw [packedRows_flatten_length, packedRows_length] at hlines
  obtain ⟨m, r, hbh, hrb⟩ := exists_last_of_nonempty h
  rw [← hlines, codeText_of_nonempty h, packedRows_eq_concat hbh hrb]
  exact count_arrayText_concat ..

/-! ### The alphabet of the text -/

/-- The bytes of R144 (braces, semicolon, comma, newline, `x` and the digits). -/
def alphabet : List Byte := [0x7B, 0x7D, 0x3B, 0x2C, 0x0A, 0x78] ++ hexDigits

theorem tokenText_subset_alphabet (s : State) (y j : Nat) : tokenText s y j ⊆ alphabet := by
  have htoken : 0x78 :: hexDigits ⊆ alphabet := by decide
  refine List.append_subset.2 ⟨fun c hc => htoken (mem_hexToken hc), ?_⟩
  split_ifs
  · exact List.nil_subset _
  · decide

theorem rowText_subset_alphabet (s : State) (y : Nat) : rowText s y ⊆ alphabet := by
  refine List.append_subset.2 ⟨fun c hc => ?_, by decide⟩
  obtain ⟨j, -, hc⟩ := List.mem_flatMap.1 hc
  exact tokenText_subset_alphabet s y j hc

/-- The text is made of the bytes of R144 alone. -/
theorem codeText_subset_alphabet (s : State) : codeText s ⊆ alphabet := by
  refine List.append_subset.2 ⟨List.append_subset.2 ⟨by decide, ?_⟩, by decide⟩
  split_ifs
  · intro c hc
    obtain ⟨y, -, hc⟩ := List.mem_flatMap.1 hc
    exact rowText_subset_alphabet s y hc
  · exact List.nil_subset _

/-- Settles O42: a token holds one `x`, no comma and no newline, and there are as many tokens as packed bytes. -/
theorem encodeOutputSeparators : Obligations.EncodeOutputSeparators := by
  intro s hbw hbh
  have hnonempty : ¬ (s.num .bw = 0 ∨ s.num .bh = 0) := not_or.2 ⟨hbw, hbh⟩
  have hx := count_codeText count_x_tokenOf hnonempty
  have hcomma := count_codeText (count_tokenOf_of_not_mem (c := 0x2C) (by decide)) hnonempty
  have hnewline := count_codeText (count_tokenOf_of_not_mem (c := 0x0A) (by decide)) hnonempty
  obtain ⟨t, hnext, ⟨-, houtput, -⟩, -⟩ := exec_encode_succeeds s
  rw [← houtput] at hx hcomma hnewline
  simp only [rowByteWidth, ceil8] at hx hcomma hnewline
  refine ⟨t, hnext, ?_, ?_, ?_, fun c hc => codeText_subset_alphabet s (houtput ▸ hc)⟩
  · simpa using hx
  · simpa using hcomma
  · have hlines : t.output.count 0x0A = 1 + s.num .bh + 1 := by simpa using hnewline
    omega

/-! ### Reading the text back -/

/-- Whether a reader of the text keeps a byte: all but braces, semicolon and newline (R150). -/
def isTokenByte (c : Byte) : Bool :=
  c != asciiOpenBrace && c != asciiCloseBrace && c != asciiSemicolon && c != asciiNewline

theorem readBack_eq_map (text : List Byte) :
    readBack text = (splitCommas [] (text.filter isTokenByte)).map tokenValue := rfl

theorem filter_tokenOf (b : Byte) : (tokenOf b).filter isTokenByte = tokenOf b := by
  have hkept : ∀ c ∈ 0x78 :: hexDigits, isTokenByte c = true := by decide
  exact List.filter_eq_self.2 fun c hc => hkept c (mem_hexToken (hexToken_eq_tokenOf b ▸ hc))

theorem filter_commaTokens (bs : List Byte) : (commaTokens bs).filter isTokenByte = commaTokens bs := by
  rw [commaTokens, List.filter_flatMap]
  exact List.flatMap_congr fun b _ => by rw [List.filter_append, filter_tokenOf]; rfl

/-- The lines without their newlines are the tokens of all their bytes. -/
theorem filter_commaLines (rows : List (List Byte)) :
    (commaLines rows).filter isTokenByte = commaTokens rows.flatten := by
  induction rows with
  | nil => rfl
  | cons row rows ih =>
    rw [commaLines, List.flatMap_cons, List.filter_append, List.filter_append, filter_commaTokens, ← commaLines, ih,
      List.flatten_cons, commaTokens, commaTokens, commaTokens, List.flatMap_append]
    simp [isTokenByte, asciiNewline]

/-- Of the text of a non-empty array a reader keeps the tokens, with a comma after each but the last. -/
theorem filter_arrayText_concat (rows : List (List Byte)) (row : List Byte) (b : Byte) :
    (arrayText (rows ++ [row ++ [b]])).filter isTokenByte = commaTokens (rows.flatten ++ row) ++ tokenOf b := by
  rw [arrayText_concat]
  simp only [List.filter_append, filter_commaLines, filter_commaTokens, filter_tokenOf]
  simp [commaTokens, isTokenByte, asciiNewline, asciiOpenBrace, asciiCloseBrace, asciiSemicolon]

/-- A piece without a comma, followed by one, is split off whole. -/
theorem splitCommas_append_comma {piece : List Byte} (hpiece : asciiComma ∉ piece) (cur rest : List Byte) :
    splitCommas cur (piece ++ asciiComma :: rest) = (cur ++ piece) :: splitCommas [] rest := by
  induction piece generalizing cur with
  | nil => simp [splitCommas]
  | cons c piece ih =>
    rw [List.mem_cons, not_or] at hpiece
    obtain ⟨hc, hpiece⟩ := hpiece
    rw [List.cons_append, splitCommas, if_neg (Ne.symm hc), ih hpiece, List.append_assoc, List.singleton_append]

/-- A piece without a comma at the end of the text is the last one. -/
theorem splitCommas_of_no_comma {piece : List Byte} (hpiece : asciiComma ∉ piece) {cur : List Byte}
    (hne : cur ++ piece ≠ []) : splitCommas cur piece = [cur ++ piece] := by
  induction piece generalizing cur with
  | nil =>
    rw [List.append_nil] at hne
    rw [splitCommas, if_neg hne, List.append_nil]
  | cons c piece ih =>
    rw [List.mem_cons, not_or] at hpiece
    obtain ⟨hc, hpiece⟩ := hpiece
    have hcons : cur ++ c :: piece = (cur ++ [c]) ++ piece := List.append_cons cur c piece
    rw [splitCommas, if_neg (Ne.symm hc), hcons]
    exact ih hpiece (hcons ▸ hne)

/-- Tokens separated by commas split into the tokens. -/
theorem splitCommas_tokens (bs : List Byte) (b : Byte) :
    splitCommas [] (commaTokens bs ++ tokenOf b) = (bs ++ [b]).map tokenOf := by
  have hcomma (b : Byte) : asciiComma ∉ tokenOf b := not_mem_tokenOf (by decide)
  induction bs with
  | nil =>
    obtain ⟨digits, htoken, -⟩ := tokenOf_eq_cons b
    exact splitCommas_of_no_comma (hcomma b) (by rw [htoken]; exact List.cons_ne_nil _ _)
  | cons a bs ih =>
    rw [commaTokens, List.flatMap_cons, List.append_assoc, List.append_assoc, ← commaTokens, List.singleton_append]
    exact (splitCommas_append_comma (hcomma a) [] _).trans (congrArg _ ih)

theorem digitValue_getD_hexDigits {d : Nat} (hd : d < 16) : digitValue (hexDigits.getD d 0) = d := by
  interval_cases d <;> rfl

/-- The token of a byte, read as a hexadecimal number, is the byte (R150). -/
theorem tokenValue_tokenOf (b : Byte) : tokenValue (tokenOf b) = b := by
  obtain ⟨hhigh, hlow⟩ := hexDigit_lt b
  have hdigits : ((tokenOf b).drop 2).foldl (fun v c => 16 * v + digitValue c) 0 = b.toNat := by
    rw [tokenOf]
    split_ifs with hb
    · simp only [List.drop_succ_cons, List.drop_zero, List.foldl_cons, List.foldl_nil, digitValue_getD_hexDigits hb]
      omega
    · simp only [List.drop_succ_cons, List.drop_zero, List.foldl_cons, List.foldl_nil, digitValue_getD_hexDigits hhigh,
        digitValue_getD_hexDigits hlow]
      omega
  rw [tokenValue, hdigits, BitVec.ofNat_toNat, BitVec.setWidth_eq]

/-- The text of a non-empty array reads back as the bytes of its rows (R150). -/
theorem readBack_arrayText_concat (rows : List (List Byte)) (row : List Byte) (b : Byte) :
    readBack (arrayText (rows ++ [row ++ [b]])) = (rows ++ [row ++ [b]]).flatten := by
  rw [readBack_eq_map, filter_arrayText_concat, splitCommas_tokens, List.map_map]
  have hread : tokenValue ∘ tokenOf = id := funext tokenValue_tokenOf
  simp [hread]

/-- A row-major buffer is its rows, one after the other (R51). -/
theorem rowMajor_eq_flatten {α : Type} (w h : Nat) (f : Nat → Nat → α) :
    rowMajor w h f = ((List.range h).map fun y => (List.range w).map fun x => f x y).flatten := by
  induction h with
  | zero => rfl
  | succ h ih =>
    have hrow : (List.range w).map ((fun i => f (i % w) (i / w)) ∘ (w * h + ·)) =
        (List.range w).map fun x => f x h := by
      refine List.map_congr_left fun x hx => ?_
      have hx := List.mem_range.1 hx
      have hw : 0 < w := Nat.zero_lt_of_lt hx
      rw [Function.comp_apply, Nat.mul_add_mod, Nat.mod_eq_of_lt hx, Nat.mul_add_div hw, Nat.div_eq_of_lt hx,
        Nat.add_zero]
    rw [List.range_succ, List.map_append, List.flatten_append, ← ih, rowMajor, Nat.mul_succ, List.range_add,
      List.map_append, List.map_map, hrow, List.map_singleton, List.flatten_singleton, rowMajor]

theorem packed_eq_flatten (s : State) : packed s = (packedRows s).flatten := rowMajor_eq_flatten ..

/-- ENCODE's text reads back as the packed bytes (R150). -/
theorem readBack_codeText (s : State) : readBack (codeText s) = packed s := by
  by_cases hempty : s.num .bw = 0 ∨ s.num .bh = 0
  · rw [codeText_of_empty hempty, packed_of_empty hempty]
    rfl
  · obtain ⟨m, r, hbh, hrb⟩ := exists_last_of_nonempty hempty
    rw [codeText_of_nonempty hempty, packed_eq_flatten, packedRows_eq_concat hbh hrb]
    exact readBack_arrayText_concat ..

/-! ### The width is not in the text -/

/-- A raster of one row of at most eight bits, after reset. -/
def oneByteRow (width : RegWord) (bits : List Bool) : State :=
  { State.reset with regs := { RegFile.reset with bw := width, bh := 1, rowbytes := 1 }, bits := bits }

/-- Rows of two and of three pixels that pack to the same byte. -/
theorem packed_oneByteRow : packed (oneByteRow 2 [true, false]) = packed (oneByteRow 3 [true, false, false]) := by
  decide

theorem codeText_oneByteRow :
    codeText (oneByteRow 2 [true, false]) = codeText (oneByteRow 3 [true, false, false]) := by
  decide

/-- Settles O43: the text reads back token by token; two pixels and three, of which the last is 0, pack to one byte. -/
theorem textReadsBackAsThePackedBytes : Obligations.TextReadsBackAsThePackedBytes := by
  refine ⟨fun s => ⟨_, _, rfl, rfl, readBack_codeText s⟩, oneByteRow 2 [true, false],
    oneByteRow 3 [true, false, false], by decide, by decide, by decide, by decide, fun i hi => ?_⟩
  obtain rfl | rfl := List.mem_pair.1 hi
  · exact ⟨_, _, rfl, rfl, packed_oneByteRow⟩
  · exact ⟨_, _, rfl, rfl, codeText_oneByteRow⟩

end Sys2Proof.Machine
end
